-- ==== Sys2Proof/Word.lean ====
section
/-! DEFINITION. The words of the block (rules R9, R10): bytes, nibbles, 32-bit values, LUT words; all unsigned. -/

namespace Sys2Proof

/-- A byte or character (R10, R13). -/
abbrev Byte := BitVec 8

/-- A nibble, and any other 4-bit register (R10, R27, R32). -/
abbrev Nibble := BitVec 4

/-- The identifier, the accumulator and the parameters (R7, R10). -/
abbrev Word32 := BitVec 32

/-- A look-up table word `ERR, NIB[3:0]` (R76). -/
abbrev LutWord := BitVec 5

end Sys2Proof
end

