-- ==== Sys2Proof/Config.lean ====
section
/-! DEFINITION. What is fixed for the life of the block (rules R7, R8): the constants, the configuration record, and
the free values: the open checksum seed and the draws of R26. A free value is `opaque`: nothing can evaluate it. -/

namespace Sys2Proof

/-- The four parameters of R7, "one configuration record fixed for the life of the block" (R8). -/
structure Params where
  /-- `CHECKSUM_SEED`, any 32-bit value; OPEN (D7). -/
  checksumSeed : Word32
  /-- `ID_CHECK_MASK`, any 32-bit value (D18). -/
  idCheckMask : Word32
  /-- `EFF_FLAG`, constrained by R8 (D15). -/
  effFlag : Word32
  /-- `RTR_FLAG`, constrained by R8 (D15). -/
  rtrFlag : Word32
  deriving DecidableEq, Repr

/-- R8: exactly one bit set, and it lies in bits 31..29. -/
abbrev SingleFlag (v : Word32) : Prop :=
  v = 0x80000000#32 ∨ v = 0x40000000#32 ∨ v = 0x20000000#32

/-- The constraints of R8 on the configuration record. -/
abbrev Params.Legal (p : Params) : Prop :=
  SingleFlag p.effFlag ∧ SingleFlag p.rtrFlag ∧ p.effFlag ≠ p.rtrFlag

namespace Config

/-- `MAX_LEN`, terminator included (R7). -/
abbrev maxLen : Nat := 31

/-- `MIN_LEN`, terminator included (R7). -/
abbrev minLen : Nat := 15

/-- `MAX_DLC` (R7). -/
abbrev maxDlc : Nat := 8

/-- The value of `CHECKSUM_SEED`, which no source gives (R7, R150, D7, U8): a free value. DESIGN CHOICE (log 5), safe:
nothing can be proved of it but what holds for every seed. -/
opaque checksumSeed : Word32

/-- The parameters of the block as it is reset: the open seed and the defaults of R7 (log 5). -/
def params : Params where
  checksumSeed := checksumSeed
  idCheckMask := 0x0001FFFC#32
  effFlag := 0x80000000#32
  rtrFlag := 0x40000000#32

/-- The draw of R26 for one staged offset in one operation: `drawStaged op k`. A free value (log 6), safe. -/
opaque drawStaged (op k : Nat) : Byte

/-- The unspecified content of `N` when operation `op` starts (R20c, R43). A free value (log 6), safe. -/
opaque drawN (op : Nat) : Nibble

/-- The unspecified content of `ACC` when operation `op` starts (R20c, R43). A free value (log 6), safe. -/
opaque drawAcc (op : Nat) : Word32

/-- The unspecified content of `CKCALC` when operation `op` starts (R20c, R43). A free value (log 6), safe. -/
opaque drawCkcalc (op : Nat) : Byte

/-- The unspecified content of `SEQ` when operation `op` starts (R20c, R43). A free value (log 6), safe. -/
opaque drawSeq (op : Nat) : Byte

/-- The unspecified content of `RAWID` when operation `op` starts (R20c, R43). A free value (log 6), safe. -/
opaque drawRawid (op : Nat) : Word32

/-- The unspecified content of `DLC` when operation `op` starts (R20c, R43). A free value (log 6), safe. -/
opaque drawDlc (op : Nat) : Nibble

end Config
end Sys2Proof
end

