-- ==== Sys2Proof/Syntax.lean ====
section
/-! DEFINITION. The two requests of the opcode map (rule R71), one constructor per row of spec/opcode_table.json. -/

namespace Sys2Proof

/-- A request of the block (R71). -/
inductive Instr where
  /-- DECODE with its input string `IN[0..L-1]`, the end byte 0x00 left out (R72, R120). -/
  | decode (inp : List Byte)
  /-- LOOKUP of one byte `B` (R73, R102). -/
  | lookup (b : Byte)
  deriving DecidableEq, Repr

end Sys2Proof
end

