-- ==== Sys2Proof/Machine/State.lean ====
section
/-! DEFINITION. The state of the block (rule R43) as plain data, the reasons a step can stop, and the state after
reset (rule R230). -/

namespace Sys2Proof.Machine

/-- The 16 bytes of the staged buffer (R25). -/
abbrev Staged := Vector Byte 16

/-- The 8 bytes of a payload array (R53). -/
abbrev Payload := Vector Byte 8

/-- The working registers of DECODE (R20c, R25 to R32); the host cannot read them. -/
structure Working where
  /-- `STAGED[0..15]` (R25). -/
  staged : Staged
  /-- `N`, the decoded count (R27). -/
  n : Nibble
  /-- `ACC`, the accumulator (R28). -/
  acc : Word32
  /-- `CKCALC`, the folded checksum (R29). -/
  ckcalc : Byte
  /-- `SEQ`, the sequence number (R30). -/
  seq : Byte
  /-- `RAWID`, the raw identifier (R31). -/
  rawid : Word32
  /-- `DLC` (R32). -/
  dlc : Nibble
  deriving DecidableEq, Repr

/-- The DecodedFrame registers (R37, R82); `DF_DATA64` is a view of `data` (R54c). -/
structure DecodedFrame where
  /-- `DF_SEQ`. -/
  seq : Byte
  /-- `DF_ID`, the raw identifier. -/
  id : Word32
  /-- `DF_DLC`. -/
  dlc : Byte
  /-- `DF_DATA[0..7]`. -/
  data : Payload
  deriving DecidableEq, Repr

/-- The SocketFrame registers (R38, R82). -/
structure SocketFrame where
  /-- `SF_CANID`. -/
  canid : Word32
  /-- `SF_DLC`. -/
  dlc : Byte
  /-- `SF_DATA[0..7]`. -/
  data : Payload
  deriving DecidableEq, Repr

/-- The registers the host can read (R35 to R38, R235). -/
inductive HostReg where
  /-- `STATUS` (R35). -/
  | status
  /-- `LK` (R36). -/
  | lk
  /-- `DF_SEQ` (R37). -/
  | dfSeq
  /-- `DF_ID` (R37). -/
  | dfId
  /-- `DF_DLC` (R37). -/
  | dfDlc
  /-- `DF_DATA[i]` (R37). -/
  | dfData (i : Fin 8)
  /-- `DF_DATA64` (R37, R54c). -/
  | dfData64
  /-- `SF_CANID` (R38). -/
  | sfCanid
  /-- `SF_DLC` (R38). -/
  | sfDlc
  /-- `SF_DATA[i]` (R38). -/
  | sfData (i : Fin 8)
  deriving DecidableEq, Repr

/-- What the host can do to the block (R235). DESIGN CHOICE (log 1), safe: one byte of a request at a time, a read of
a response register, or the reset signal. -/
inductive HostAction where
  /-- The host sends one byte of a request (R70 to R73). -/
  | byte (b : Byte)
  /-- The host reads a response register (R235). -/
  | read (r : HostReg)
  /-- The host gives the reset signal (R230, R235). -/
  | reset
  deriving DecidableEq, Repr

/-- The whole state of the block (R43), with two fields of the model's own. -/
structure State where
  /-- The configuration record (R7, R8, R20a); no step changes it (log 5). -/
  cfg : Params
  /-- `CMD` (R34); `none` is the rule's "no value" (log 8). -/
  cmd : Option Byte
  /-- The working registers (R25 to R32). -/
  work : Working
  /-- `STATUS` (R35, R75); `none` is the rule's "no value" (log 8). -/
  status : Option (BitVec 3)
  /-- `LK` (R36, R76); `none` is the rule's "no value" (log 8). -/
  lk : Option LutWord
  /-- The DecodedFrame registers, valid together (R37, R39); `none` is the rule's "no value" (log 8). -/
  df : Option DecodedFrame
  /-- The SocketFrame registers, valid together (R38, R39); `none` is the rule's "no value" (log 8). -/
  sf : Option SocketFrame
  /-- The model's own: how often the working registers have been drawn, so that every operation has free values of
  its own (R26). DESIGN CHOICE (log 6), safe: no statement rests on its value. -/
  draws : Nat
  /-- The model's own: what the host will do, in order (R62, R235). DESIGN CHOICE (log 1), safe. -/
  host : List HostAction
  deriving DecidableEq, Repr

/-- Why the machine stops with a fault. -/
inductive Fault where
  /-- Raised by the host-read action: the register holds no value (R35, R36, R39, R40, R234b). Safe: the spec itself
  says that a model faults here. -/
  | noValue (r : HostReg)
  /-- Raised by the step when the host reads in the middle of a request it has not finished sending (R63, R234a,
  U20 "stuck"). Safe: the host must wait (log 3). -/
  | readDuringRequest
  deriving DecidableEq, Repr

/-- Why a request has no meaning. -/
inductive Refusal where
  /-- Raised by an arm of exec that has no meaning yet; no arm is in that case. Safe. -/
  | notModelled (mnemonic : String)
  /-- Raised by the step on a reserved command byte (R83, R212). Safe: the spec itself refuses it. -/
  | reservedCommand (cmd : Byte)
  deriving DecidableEq, Repr

/-- The unspecified contents of the working registers when operation `op` starts (R20c, R26, R43): all free (log 6). -/
def Working.drawn (op : Nat) : Working where
  staged := #v[Config.drawStaged op 0, Config.drawStaged op 1, Config.drawStaged op 2, Config.drawStaged op 3,
    Config.drawStaged op 4, Config.drawStaged op 5, Config.drawStaged op 6, Config.drawStaged op 7,
    Config.drawStaged op 8, Config.drawStaged op 9, Config.drawStaged op 10, Config.drawStaged op 11,
    Config.drawStaged op 12, Config.drawStaged op 13, Config.drawStaged op 14, Config.drawStaged op 15]
  n := Config.drawN op
  acc := Config.drawAcc op
  ckcalc := Config.drawCkcalc op
  seq := Config.drawSeq op
  rawid := Config.drawRawid op
  dlc := Config.drawDlc op

/-- The idle state that reset leaves under a configuration (R230, R43): nothing holds a value but the configuration
and the unspecified working registers, drawn as number `op`. -/
def State.idle (cfg : Params) (op : Nat) : State where
  cfg := cfg
  cmd := none
  work := Working.drawn op
  status := none
  lk := none
  df := none
  sf := none
  draws := op + 1
  host := []

/-- The machine right after reset (R230, R232): the idle state of the default configuration, the host silent. -/
def State.reset : State := State.idle Config.params 0

end Sys2Proof.Machine
end

