-- ==== Sys2Proof/Machine/Ops.lean ====
section
/-! DEFINITION. The named operations every request shares: the staged buffer (R25, R26, R51, R54), the start of a
DECODE (R26), its failure (R200) and the STATUS codes (R75). The block has no trap (R210): a failure is its only
"exception", and there is nothing to return from (R211). -/

namespace Sys2Proof.Machine

/-- A staged offset is 4 bits (R51). DEDUCED (log 9), safe: no rule reads or writes an offset above 14 (R51). -/
def stagedOffset (k : Nat) : Fin 16 := Fin.ofNat 16 k

/-- `STAGED[k]` (R11, R51). -/
def stagedRead (st : Staged) (k : Nat) : Byte := st.get (stagedOffset k)

/-- `MemWrite(STAGED, k, 1, v)` (R11, R123). -/
def stagedWrite (st : Staged) (k : Nat) (v : Byte) : Staged := st.set (stagedOffset k).val v (stagedOffset k).isLt

/-- `MemRead(STAGED, k, n)`: `n` bytes from offset `k`, byte `k` lowest (R11). -/
def memRead (st : Staged) (k : Nat) : (n : Nat) → BitVec (8 * n)
  | 0 => 0#0
  | n + 1 => (memRead st (k + 1) n ++ stagedRead st k : BitVec (8 * n + 8))

/-- The six failures of DECODE, in the order they are checked (R201 to R207). -/
inductive FailCode where
  /-- The string is longer than 31 bytes (R201). -/
  | tooLong
  /-- The string is shorter than 15 bytes (R202). -/
  | tooShort
  /-- A decoded character is no hex digit (R203). -/
  | invalidHex
  /-- A standard frame with an identifier bit of the check mask set (R204). -/
  | illegalCanId
  /-- The DLC is above 8 (R205). -/
  | illegalDlc
  /-- The folded sum differs from the checksum byte (R206). -/
  | checksumError
  deriving DecidableEq, Repr

/-- `STATUS = 0`, the outcome OK (R75). -/
def statusOk : BitVec 3 := 0#3

/-- The `STATUS` value of a failure (R75). -/
def statusOf : FailCode → BitVec 3
  | .tooLong => 1#3
  | .tooShort => 2#3
  | .invalidHex => 3#3
  | .illegalCanId => 4#3
  | .illegalDlc => 5#3
  | .checksumError => 6#3

/-- What a stage of DECODE leaves: the working registers, and the failure if it raised one (R11, R200). -/
abbrev StageResult := Working × Option FailCode

/-- Go on with the next stage unless a failure has been raised (R120, R200: no later stage runs). -/
def stageThen (r : StageResult) (next : Working → StageResult) : StageResult :=
  match r with
  | (w, none) => next w
  | (w, some c) => (w, some c)

/-- The start of a DECODE: every working register holds an unspecified value, drawn for this operation alone
(R20c, R26; log 6, log 7). -/
def startDecode (s : State) : State :=
  { s with work := Working.drawn s.draws, draws := s.draws + 1 }

/-- `raise Fail(code)`: STATUS takes the code and every frame register loses its value (R39, R200). -/
def failDecode (c : FailCode) (w : Working) (s : State) : State :=
  { s with work := w, status := some (statusOf c), df := none, sf := none }

end Sys2Proof.Machine
end

