-- ==== Sys2Proof/Machine/Checksum.lean ====
section
/-! DEFINITION. The checksum accumulator and the fold (R150 to R153). -/

namespace Sys2Proof.Machine

/-- `ACC` after the staged bytes at offsets 0..n-1 have been added to `acc` in order, modulo 2^32 (R151, R152). -/
def sumStaged (acc : Word32) (st : Staged) : Nat → Word32
  | 0 => acc
  | n + 1 => sumStaged acc st n + (stagedRead st n).setWidth 32

/-- One 16-bit step of the fold: low half plus high half, the high half removed (R153, D8). -/
def foldHalves (a : Word32) : Word32 := (a.extractLsb' 0 16).setWidth 32 + (a.extractLsb' 16 16).setWidth 32

/-- One 8-bit step of the fold: low byte plus the byte above it (R153, D8). -/
def foldBytes (a : Word32) : Word32 := (a.extractLsb' 0 8).setWidth 32 + (a.extractLsb' 8 8).setWidth 32

/-- `fold`: two 16-bit steps, two 8-bit steps, the low byte (R153). -/
def fold (a : Word32) : Byte := (foldBytes (foldBytes (foldHalves (foldHalves a)))).extractLsb' 0 8

end Sys2Proof.Machine
end

