-- ==== Sys2Proof/Machine/HexLut.lean ====
section
/-! DEFINITION. The hex-nibble look-up table (R23, R76, R100, R101) and LOOKUP (R102). -/

namespace Sys2Proof.Machine

/-- The ERROR sentinel `1, 0b0000` (R76). -/
def lutError : LutWord := 0x10#5

/-- The word of a hex digit whose value is `b - base + plus`, `ERR` clear (R76, R100). -/
def lutDigit (b base plus : Byte) : LutWord := 0#1 ++ (b - base + plus).extractLsb' 0 4

/-- `LUT(b)` (R100), constant storage as the pure function R101 allows (log 10). -/
def lut (b : Byte) : LutWord :=
  if 0x30#8 ≤ b ∧ b ≤ 0x39#8 then lutDigit b 0x30#8 0#8
  else if 0x41#8 ≤ b ∧ b ≤ 0x46#8 then lutDigit b 0x41#8 10#8
  else if 0x61#8 ≤ b ∧ b ≤ 0x66#8 then lutDigit b 0x61#8 10#8
  else lutError

/-- `ERR`, bit 4 of a table word (R76). -/
def lutErr (w : LutWord) : Bool := w.getLsbD 4

/-- `NIB[3:0]` of a table word (R76). -/
def lutNib (w : LutWord) : Nibble := w.extractLsb' 0 4

/-- LOOKUP: `LK <- LUT(B)`, every other register unchanged, never a failure (R102, R213). -/
def execLookup (b : Byte) (s : State) : Host.Outcome State Fault Refusal :=
  .next { s with lk := some (lut b) }

end Sys2Proof.Machine
end

