-- ==== Sys2Proof/Machine/Operands.lean ====
section
/-! DEFINITION. Operand assembly (R86): a byte from two characters (R103), the fields of the staged buffer (R126 to
R128), the payload region (R173) and the 64-bit view (R54). -/

namespace Sys2Proof.Machine

/-- `hexpair(ch, cl)`: both characters are looked up, then judged; `none` is ERROR (R103). -/
def hexpair (ch cl : Byte) : Option Byte :=
  let wh := lut ch
  let wl := lut cl
  if lutErr wh ∨ lutErr wl then none
  else some (((lutNib wh).setWidth 8 <<< 4) ||| (lutNib wl).setWidth 8)

/-- `P`, the pair count, from the length of the string (R122). -/
def pairCount (l : Nat) : Nat := (l - 1) >>> 1

/-- `SEQ` (R126). -/
def sequenceNumber (st : Staged) : Byte := stagedRead st 0

/-- `RAWID`: the four identifier bytes, combined by bitwise OR (R127, C4). -/
def rawIdentifier (st : Staged) : Word32 :=
  (stagedRead st 1).setWidth 32
    ||| ((stagedRead st 2).setWidth 32 <<< 8)
    ||| ((stagedRead st 3).setWidth 32 <<< 16)
    ||| ((stagedRead st 4).setWidth 32 <<< 24)

/-- `DLC`, the low nibble of staged byte 5 (R128). -/
def dataLengthCode (st : Staged) : Nibble := (stagedRead st 5).extractLsb' 0 4

/-- The staged offset of the checksum byte, 6 + DLC (R155). -/
def checksumOffset (dlc : Nibble) : Nat := 6 + dlc.toNat

/-- The 8-byte payload region, staged offsets 6..13, whatever the DLC (R173). -/
def payloadRegion (st : Staged) : Payload :=
  #v[stagedRead st 6, stagedRead st 7, stagedRead st 8, stagedRead st 9,
    stagedRead st 10, stagedRead st 11, stagedRead st 12, stagedRead st 13]

/-- `DF_DATA64`: byte `i` in bits 8i+7..8i (R54c, D17). -/
def payloadWord (d : Payload) : BitVec 64 :=
  d.get 7 ++ d.get 6 ++ d.get 5 ++ d.get 4 ++ d.get 3 ++ d.get 2 ++ d.get 1 ++ d.get 0

end Sys2Proof.Machine
end

