-- ==== Sys2Proof/Machine/Flags.lean ====
section
/-! DEFINITION. The flag bits the block handles (R33): IDE and RTR of the raw identifier (R129), the identifier check
that reads them (R130), and the flags of the arbitration identifier (R170, R171). The block has no flags register. -/

namespace Sys2Proof.Machine

/-- `IDE`, bit 2 of the raw identifier (R129, C1). -/
def ideFlag (rawid : Word32) : Bool := rawid.getLsbD 2

/-- `RTR`, bit 1 of the raw identifier (R129, C1). -/
def rtrFlag (rawid : Word32) : Bool := rawid.getLsbD 1

/-- The identifier check fails: IDE clear and a bit of `ID_CHECK_MASK` set (R130). -/
def idIllegal (cfg : Params) (rawid : Word32) : Bool :=
  !ideFlag rawid && (rawid &&& cfg.idCheckMask != 0#32)

/-- The DLC bound check fails (R131). -/
def dlcIllegal (dlc : Nibble) : Bool := dlc.toNat > Config.maxDlc

/-- `RTR ? RTR_FLAG : 0` (R170, R171). -/
def rtrBits (cfg : Params) (rawid : Word32) : Word32 :=
  if rtrFlag rawid then cfg.rtrFlag else 0#32

/-- `SF_CANID` from the raw identifier: the extended path (R170) or the standard path (R171). -/
def arbitrationId (cfg : Params) (rawid : Word32) : Word32 :=
  if ideFlag rawid then (rawid >>> 3) ||| cfg.effFlag ||| rtrBits cfg rawid
  else (rawid >>> 21) ||| rtrBits cfg rawid

end Sys2Proof.Machine
end

