-- ==== Sys2Proof/Machine/Frame.lean ====
section
/-! DEFINITION. DECODE (R120): its stages in the order that decides which failure is reported (R207), and the commit
of a successful frame (R170 to R176). -/

namespace Sys2Proof.Machine

/-- Stage 1, the length gate, from the length alone (R121). -/
def lengthGate (l : Nat) : Option FailCode :=
  if l > Config.maxLen then some .tooLong
  else if l < Config.minLen then some .tooShort
  else none

/-- The hex-pair loop over the characters not yet decoded, at pair index `i` (R123): it stops at the first pair that is
no byte; one character left over is the unpaired one and is not looked up (R122). -/
def hexLoop : List Byte → Nat → Staged → Staged × Option FailCode
  | ch :: cl :: rest, i, st =>
    match hexpair ch cl with
    | some v => hexLoop rest (i + 1) (stagedWrite st i v)
    | none => (st, some .invalidHex)
  | _, _, st => (st, none)

/-- Stage 1 (R121). -/
def lengthStage (inp : List Byte) (w : Working) : StageResult := (w, lengthGate inp.length)

/-- Stage 2: the characters strictly before the last byte, pair by pair (R122, R123, R125), then `N <- P` (R124). -/
def hexStage (inp : List Byte) (w : Working) : StageResult :=
  match hexLoop inp.dropLast 0 w.staged with
  | (st, none) => ({ w with staged := st, n := BitVec.ofNat 4 (pairCount inp.length) }, none)
  | (st, some c) => ({ w with staged := st }, some c)

/-- Stage 3, the field extractor (R126 to R128). -/
def extractStage (w : Working) : StageResult :=
  ({ w with
    seq := sequenceNumber w.staged
    rawid := rawIdentifier w.staged
    dlc := dataLengthCode w.staged }, none)

/-- Stage 4, the identifier legality check (R130). -/
def identifierStage (cfg : Params) (w : Working) : StageResult :=
  (w, if idIllegal cfg w.rawid then some .illegalCanId else none)

/-- Stage 5, the DLC bound check (R131). -/
def dlcStage (w : Working) : StageResult :=
  (w, if dlcIllegal w.dlc then some .illegalDlc else none)

/-- Stage 6, first half: the bytes at offsets 0..5+DLC are summed from the seed and the sum folded (R150 to R153). -/
def checksumStage (cfg : Params) (w : Working) : StageResult :=
  let acc := sumStaged cfg.checksumSeed w.staged (checksumOffset w.dlc)
  ({ w with acc := acc, ckcalc := fold acc }, none)

/-- Stage 6, second half: the folded sum against the checksum byte (R155). -/
def compareStage (w : Working) : StageResult :=
  (w, if w.ckcalc ≠ stagedRead w.staged (checksumOffset w.dlc) then some .checksumError else none)

/-- Every stage of DECODE that can fail, on working registers that hold anything (R120). -/
def decodeStages (cfg : Params) (inp : List Byte) (w : Working) : StageResult :=
  stageThen (lengthStage inp w) fun w =>
  stageThen (hexStage inp w) fun w =>
  stageThen (extractStage w) fun w =>
  stageThen (identifierStage cfg w) fun w =>
  stageThen (dlcStage w) fun w =>
  stageThen (checksumStage cfg w) compareStage

/-- The SocketFrame of the working registers (R170 to R173). -/
def socketFrameOf (cfg : Params) (w : Working) : SocketFrame where
  canid := arbitrationId cfg w.rawid
  dlc := w.dlc.setWidth 8
  data := payloadRegion w.staged

/-- The DecodedFrame of the working registers (R174). -/
def decodedFrameOf (w : Working) : DecodedFrame where
  seq := w.seq
  id := w.rawid
  dlc := w.dlc.setWidth 8
  data := payloadRegion w.staged

/-- The commit: all frame registers become valid together with `STATUS = 0` (R175). -/
def commitDecode (w : Working) (s : State) : State :=
  { s with
    work := w
    status := some statusOk
    df := some (decodedFrameOf w)
    sf := some (socketFrameOf s.cfg w) }

/-- The end of a DECODE: failure (R200) or commit (R175). -/
def finishDecode (r : StageResult) (s : State) : State :=
  match r with
  | (w, none) => commitDecode w s
  | (w, some c) => failDecode c w s

/-- DECODE: one atomic step (R120, R58). -/
def execDecode (inp : List Byte) (s : State) : Host.Outcome State Fault Refusal :=
  .next (finishDecode (decodeStages s.cfg inp (startDecode s).work) (startDecode s))

end Sys2Proof.Machine
end

