-- ==== Sys2Proof/Machine/Dispatch.lean ====
section
/-! DEFINITION. One arm per request (R71). -/

namespace Sys2Proof.Machine

def exec (i : Instr) (s : State) : Host.Outcome State Fault Refusal :=
  match i with
  | .decode inp => Sys2Proof.Machine.execDecode inp s
  | .lookup b => Sys2Proof.Machine.execLookup b s

end Sys2Proof.Machine
end

