-- ==== Sys2Proof/WellFormed.lean ====
section
/-! DEFINITION. Which requests can be written on the wire (rules R50, R72, R73). -/

namespace Sys2Proof

/-- A DECODE's string holds no 0x00, which would end it (R50, R72); every byte is a LOOKUP operand (R73). -/
def Instr.wf : Instr → Bool
  | .decode inp => inp.all (fun b => b != 0#8)
  | .lookup _ => true

/-- `Instr.wf` as a proposition. -/
abbrev Instr.Wf (i : Instr) : Prop := i.wf = true

end Sys2Proof
end

