-- ==== Sys2Proof/Decode.lean ====
section
/-! DEFINITION. Request bytes to requests and back (rules R70 to R73, R83): the decoder, total on any bytes, the
encoder, and the reading of an opcode-table word. -/

namespace Sys2Proof

/-- Why bytes are no request. -/
inductive DecodeError where
  /-- No byte has been sent. -/
  | noBytes
  /-- The command byte is reserved (R83). -/
  | reservedCommand (cmd : Byte)
  /-- A DECODE whose end byte 0x00 has not been sent (R72). -/
  | unterminatedString
  /-- A LOOKUP whose operand byte has not been sent (R73). -/
  | missingOperand
  deriving DecidableEq, Repr

/-- Field `RSV`, bits 7..4 of the command byte (R70). -/
def commandRsv (c : Byte) : Nibble := c.extractLsb' 4 4

/-- Field `OP`, bits 3..0 of the command byte (R70). -/
def commandOp (c : Byte) : Nibble := c.extractLsb' 0 4

/-- The string before the first 0x00 and the bytes after that 0x00 (R72); none where no 0x00 stands. -/
def splitAtNul : List Byte → Option (List Byte × List Byte)
  | [] => none
  | b :: bs => if b = 0#8 then some ([], bs) else (splitAtNul bs).map (fun p => (b :: p.1, p.2))

/-- The operand of a DECODE (R72). -/
def decodeString (bs : List Byte) : Except DecodeError (Instr × List Byte) :=
  match splitAtNul bs with
  | some (inp, rest) => .ok (.decode inp, rest)
  | none => .error .unterminatedString

/-- The operand of a LOOKUP (R73). -/
def decodeOperandByte : List Byte → Except DecodeError (Instr × List Byte)
  | b :: rest => .ok (.lookup b, rest)
  | [] => .error .missingOperand

/-- The request at the front of a byte sequence, with the bytes after it (R70 to R73); a reserved command byte is
rejected by its value, whatever follows it (R83). -/
def decode : List Byte → Except DecodeError (Instr × List Byte)
  | [] => .error .noBytes
  | c :: bs =>
    if commandRsv c ≠ 0#4 then .error (.reservedCommand c)
    else if commandOp c = 0x1#4 then decodeString bs
    else if commandOp c = 0x2#4 then decodeOperandByte bs
    else .error (.reservedCommand c)

/-- The command byte of a request (R71). -/
def commandByte : Instr → Byte
  | .decode _ => 0x01#8
  | .lookup _ => 0x02#8

/-- The bytes of a request (R71 to R73, R87). -/
def encode : Instr → List Byte
  | .decode inp => 0x01#8 :: (inp ++ [0x00#8])
  | .lookup b => [0x02#8, b]

/-- Byte `i` of a table word: bits 8i+7..8i, the first byte lowest. -/
def tableByte (w i : Nat) : Byte := BitVec.ofNat 8 (w >>> (8 * i))

/-- The bytes of a table word of `nbits` bits, then the zero byte that an operand above `nbits` amounts to: the end
byte of a DECODE, the operand of a LOOKUP (log 4). -/
def tableBytes (nbits w : Nat) : List Byte :=
  (List.range ((nbits + 7) / 8)).map (tableByte w) ++ [0x00#8]

/-- The request the decoder reads from an opcode-table word (bit 0 the least significant bit of the first byte). -/
def decodeTableWord (nbits w : Nat) : Option Instr :=
  match decode (tableBytes nbits w) with
  | .ok (i, _) => some i
  | .error _ => none

/-- Exactly the bytes of the request in a table word; where the word is no request, all its bytes. -/
def tableRequest (nbits w : Nat) : List Byte :=
  match decode (tableBytes nbits w) with
  | .ok (i, _) => encode i
  | .error _ => tableBytes nbits w

end Sys2Proof
end

