-- ==== Sys2Proof/Machine/HostPort.lean ====
section
/-! DEFINITION. The host's side of a step (R235): the bytes of the request at the front of the host's actions, what
is left of them, the reads of response registers and the reset event. -/

namespace Sys2Proof.Machine

/-- The bytes the host sends before its next other action. -/
def leadingBytes : List HostAction → List Byte
  | .byte b :: t => b :: leadingBytes t
  | _ => []

/-- The host's actions from its next one that sends no byte. -/
def afterBytes : List HostAction → List HostAction
  | .byte _ :: t => afterBytes t
  | t => t

/-- The host sends these bytes. -/
def sendBytes (bs : List Byte) : List HostAction := bs.map .byte

/-- The block takes a complete request: `CMD` holds its command byte (R34; log 11), and the bytes after it are the
host's next. -/
def acceptRequest (i : Instr) (rest : List Byte) (s : State) : State :=
  { s with cmd := some (commandByte i), host := sendBytes rest ++ afterBytes s.host }

/-- The value a host read of a response register gets, widened to 64 bits; `none` where it holds no value
(R35 to R40, R54c). -/
def readReg : HostReg → State → Option (BitVec 64)
  | .status, s => s.status.map (·.setWidth 64)
  | .lk, s => s.lk.map (·.setWidth 64)
  | .dfSeq, s => s.df.map (·.seq.setWidth 64)
  | .dfId, s => s.df.map (·.id.setWidth 64)
  | .dfDlc, s => s.df.map (·.dlc.setWidth 64)
  | .dfData i, s => s.df.map (fun f => (f.data.get i).setWidth 64)
  | .dfData64, s => s.df.map (fun f => payloadWord f.data)
  | .sfCanid, s => s.sf.map (·.canid.setWidth 64)
  | .sfDlc, s => s.sf.map (·.dlc.setWidth 64)
  | .sfData i, s => s.sf.map (fun f => (f.data.get i).setWidth 64)

/-- A host read: no side effect on the block (R59); a register with no value faults (R35, R36, R39, R40). -/
def hostRead (r : HostReg) (rest : List HostAction) (s : State) : Host.Outcome State Fault Refusal :=
  match readReg r s with
  | some _ => .next { s with host := rest }
  | none => .fault (.noValue r)

/-- The reset event: the idle state under the same configuration (R230, R20a), its working registers drawn anew. -/
def resetEvent (rest : List HostAction) (s : State) : State :=
  { State.idle s.cfg s.draws with host := rest }

/-- An incomplete request and what the host does next (log 3): it sends nothing more, and the block waits; it resets
the block, and the request is gone (R230); it reads a register before the response is complete (R63, R234a, U20). -/
def incompleteRequest (s : State) : Host.Outcome State Fault Refusal :=
  match afterBytes s.host with
  | .reset :: rest => .next (resetEvent rest s)
  | .read _ :: _ => .fault .readDuringRequest
  | _ => .next s

/-- Bytes that are no request: a reserved command is refused (R83, R212), any other is not complete yet. -/
def rejectRequest (e : DecodeError) (s : State) : Host.Outcome State Fault Refusal :=
  match e with
  | .reservedCommand c => .refused (.reservedCommand c)
  | .noBytes => incompleteRequest s
  | .unterminatedString => incompleteRequest s
  | .missingOperand => incompleteRequest s

end Sys2Proof.Machine
end

