-- ==== Sys2Proof/Machine/Step.lean ====
section
/-! DEFINITION. One step: the host's next action, served whole (R5, R62). The block has no program counter (R22): the
"next instruction" is the request at the front of the host's actions. -/

namespace Sys2Proof.Machine

/-- One step of the block: idle with nothing to do (log 2), a host read, a reset, or one request (R5, R235). -/
def step (s : State) : Host.Outcome State Fault Refusal :=
  match s.host with
  | [] => .next s
  | .read r :: rest => hostRead r rest s
  | .reset :: rest => .next (resetEvent rest s)
  | .byte _ :: _ =>
    match decode (leadingBytes s.host) with
    | .ok (i, rest) => exec i (acceptRequest i rest s)
    | .error e => rejectRequest e s

/-- `s` with the request of an opcode-table word put before everything else the host will do, so that the next step
runs exactly it (log 4). -/
def State.withFetchWord (s : State) (nbits w : Nat) : State :=
  { s with host := sendBytes (tableRequest nbits w) ++ s.host }

end Sys2Proof.Machine
end

