-- ==== Sys2Proof/Machine/Assembler.lean ====
section
/-! DEFINITION. The request notation of R87 and its one pseudo-instruction DECODE.F (R88): a convenience of the host's,
with no effect on the block (D26). A source line is a list of ASCII bytes (R13). -/

namespace Sys2Proof.Machine

/-- A line of a request sequence (R87, R88). -/
inductive SourceLine where
  /-- `LOOKUP <byte>`. -/
  | lookup (b : Byte)
  /-- `DECODE "<string>"`, the escapes read. -/
  | decode (inp : List Byte)
  /-- `DECODE.F seq, rawid, dlcbyte, p0, ..., pm-1`. -/
  | decodeF (seq : Byte) (rawid : Word32) (dlcByte : Byte) (payload : List Byte)
  deriving DecidableEq, Repr

/-- The upper-case hex digit of a nibble (R88). -/
def hexDigit (n : Nibble) : Byte :=
  if n.toNat < 10 then 0x30#8 + n.setWidth 8 else 0x41#8 + (n.setWidth 8 - 10#8)

/-- The upper-case two-digit hex spelling of bytes, high nibble first (R88). -/
def hexText : List Byte → List Byte
  | [] => []
  | b :: bs => hexDigit (b.extractLsb' 4 4) :: hexDigit (b.extractLsb' 0 4) :: hexText bs

/-- The bytes DECODE.F spells before the checksum: the identifier lies little-endian (R88). -/
def frameBytes (seq : Byte) (rawid : Word32) (dlcByte : Byte) (payload : List Byte) : List Byte :=
  seq :: rawid.extractLsb' 0 8 :: rawid.extractLsb' 8 8 :: rawid.extractLsb' 16 8 :: rawid.extractLsb' 24 8 ::
    dlcByte :: payload

/-- The sum of bytes from a seed, modulo 2^32 (R88, R152). -/
def sumBytes (acc : Word32) : List Byte → Word32
  | [] => acc
  | b :: bs => sumBytes (acc + b.setWidth 32) bs

/-- The operand string of DECODE.F under a configured seed: the spelled bytes, their checksum, a newline (R88). -/
def frameText (cfg : Params) (seq : Byte) (rawid : Word32) (dlcByte : Byte) (payload : List Byte) : List Byte :=
  let bytes := frameBytes seq rawid dlcByte payload
  hexText (bytes ++ [fold (sumBytes cfg.checksumSeed bytes)]) ++ [0x0A#8]

/-- The request a line stands for (R87, R88). -/
def expandLine (cfg : Params) : SourceLine → Instr
  | .lookup b => .lookup b
  | .decode inp => .decode inp
  | .decodeF seq rawid dlcByte payload => .decode (frameText cfg seq rawid dlcByte payload)

/-- The bytes of a request sequence, line after line (R87). -/
def assemble (cfg : Params) (lines : List SourceLine) : List Byte :=
  lines.flatMap (fun l => encode (expandLine cfg l))

/-- The text after a keyword, where the text begins with it. -/
def stripWord : List Byte → List Byte → Option (List Byte)
  | [], t => some t
  | k :: ks, c :: t => if k = c then stripWord ks t else none
  | _ :: _, [] => none

/-- The text after its leading spaces. -/
def skipSpaces : List Byte → List Byte
  | [] => []
  | c :: t => if c = 0x20#8 then skipSpaces t else c :: t

/-- Nothing is left but spaces and a `;` comment (R87). -/
def lineEnds (t : List Byte) : Bool :=
  match skipSpaces t with
  | [] => true
  | c :: _ => c = 0x3B#8

/-- `n` pairs of hex digits, high nibble first (R103). -/
def hexPairs : Nat → List Byte → Option (List Byte × List Byte)
  | 0, t => some ([], t)
  | n + 1, h :: l :: t =>
    match hexpair h l with
    | some b => (hexPairs n t).map (fun p => (b :: p.1, p.2))
    | none => none
  | _ + 1, _ => none

/-- `<byte>`: `0xHH` or a quoted character (R87). -/
def byteOperand (t : List Byte) : Option (Byte × List Byte) :=
  match stripWord [0x30#8, 0x78#8] t with
  | some t =>
    match hexPairs 1 t with
    | some (b :: _, t) => some (b, t)
    | _ => none
  | none =>
    match t with
    | q :: c :: q' :: t => if q = 0x27#8 ∧ q' = 0x27#8 then some (c, t) else none
    | _ => none

/-- `0x` and eight hex digits, the raw identifier of DECODE.F (R88). -/
def wordOperand (t : List Byte) : Option (Word32 × List Byte) :=
  match stripWord [0x30#8, 0x78#8] t with
  | some t =>
    match hexPairs 4 t with
    | some ([a, b, c, d], t) => some (a ++ b ++ c ++ d, t)
    | _ => none
  | none => none

/-- Where the reading of a quoted string stands inside an escape (R87). -/
inductive EscapeState where
  /-- Outside an escape. -/
  | plain
  /-- After a backslash. -/
  | backslash
  /-- After backslash and `x`. -/
  | hexHigh
  /-- After backslash, `x` and the high digit. -/
  | hexLow (high : Byte)
  deriving DecidableEq, Repr

/-- The bytes of a quoted string up to its closing quote: `\n` is 0x0A, `\xHH` any byte except 0x00 (R87). -/
def quotedString : EscapeState → List Byte → Option (List Byte × List Byte)
  | _, [] => none
  | .plain, c :: t =>
    if c = 0x22#8 then some ([], t)
    else if c = 0x5C#8 then quotedString .backslash t
    else if c = 0x00#8 then none
    else (quotedString .plain t).map (fun p => (c :: p.1, p.2))
  | .backslash, c :: t =>
    if c = 0x6E#8 then (quotedString .plain t).map (fun p => (0x0A#8 :: p.1, p.2))
    else if c = 0x78#8 then quotedString .hexHigh t
    else none
  | .hexHigh, c :: t => quotedString (.hexLow c) t
  | .hexLow h, c :: t =>
    match hexpair h c with
    | some b => if b = 0x00#8 then none else (quotedString .plain t).map (fun p => (b :: p.1, p.2))
    | none => none

/-- A comma and the spaces after it. -/
def comma (t : List Byte) : Option (List Byte) :=
  (stripWord [0x2C#8] (skipSpaces t)).map skipSpaces

/-- The rest of a payload after a byte of it, to the closing brace (R88); `fuel` bounds the number of bytes. -/
def payloadTail : (fuel : Nat) → List Byte → Option (List Byte × List Byte)
  | 0, _ => none
  | fuel + 1, t =>
    match stripWord [0x7D#8] (skipSpaces t) with
    | some t => some ([], t)
    | none =>
      match (comma t).bind byteOperand with
      | some (b, t) => (payloadTail fuel t).map (fun p => (b :: p.1, p.2))
      | none => none

/-- A payload in braces, empty or of bytes separated by commas (R88). -/
def payloadOperand (t : List Byte) : Option (List Byte × List Byte) :=
  match stripWord [0x7B#8] t with
  | none => none
  | some t =>
    match stripWord [0x7D#8] (skipSpaces t) with
    | some t => some ([], t)
    | none =>
      match byteOperand (skipSpaces t) with
      | some (b, t) => (payloadTail (t.length + 1) t).map (fun p => (b :: p.1, p.2))
      | none => none

/-- The operands of LOOKUP (R87). -/
def parseLookup (t : List Byte) : Option (SourceLine × List Byte) :=
  (byteOperand (skipSpaces t)).map (fun p => (.lookup p.1, p.2))

/-- The operand of DECODE (R87). -/
def parseDecode (t : List Byte) : Option (SourceLine × List Byte) :=
  match stripWord [0x22#8] (skipSpaces t) with
  | some t => (quotedString .plain t).map (fun p => (.decode p.1, p.2))
  | none => none

/-- The operands of DECODE.F (R88). -/
def parseDecodeF (t : List Byte) : Option (SourceLine × List Byte) :=
  match byteOperand (skipSpaces t) with
  | none => none
  | some (seq, t) =>
    match (comma t).bind wordOperand with
    | none => none
    | some (rawid, t) =>
      match (comma t).bind byteOperand with
      | none => none
      | some (dlcByte, t) =>
        ((comma t).bind payloadOperand).map (fun p => (.decodeF seq rawid dlcByte p.1, p.2))

/-- One line of text (R87, R88): `some []` for a blank line or a comment, `none` for what is no line (log 13). -/
def parseLine (t : List Byte) : Option (List SourceLine) :=
  if lineEnds t then some []
  else
    let t := skipSpaces t
    let parsed :=
      match stripWord [0x4C#8, 0x4F#8, 0x4F#8, 0x4B#8, 0x55#8, 0x50#8, 0x20#8] t with
      | some t => parseLookup t
      | none =>
        match stripWord [0x44#8, 0x45#8, 0x43#8, 0x4F#8, 0x44#8, 0x45#8] t with
        | none => none
        | some t =>
          match stripWord [0x2E#8, 0x46#8, 0x20#8] t with
          | some t => parseDecodeF t
          | none => (stripWord [0x20#8] t).bind parseDecode
    match parsed with
    | some (line, rest) => if lineEnds rest then some [line] else none
    | none => none

end Sys2Proof.Machine
end

