-- ==== Sys2Proof/Safety.lean ====
section
/-! DEFINITION. The terms claims are stated in: the bytes an input spells, read without the machine's buffer, the
frames a host may rely on, and the invariant every step keeps. -/

namespace Sys2Proof.Safety

open Sys2Proof.Machine

/-- The bytes that characters spell pair by pair; `none` where a pair is no byte (R103, R123). An unpaired last
character is not looked up (R122). -/
def pairBytes : List Byte → Option (List Byte)
  | ch :: cl :: rest =>
    match hexpair ch cl, pairBytes rest with
    | some v, some vs => some (v :: vs)
    | _, _ => none
  | _ => some []

/-- The bytes a DECODE string spells: its characters strictly before the last one (R122, R125). -/
def spelledBytes (inp : List Byte) : Option (List Byte) := pairBytes inp.dropLast

/-- What a DECODE finds at staged offset `k` once `bs` has been decoded: byte `k` of `bs`, and past the decoded bytes
what was drawn for this operation (R26, R124). -/
def stagedByte (bs : List Byte) (drawn : Staged) (k : Nat) : Byte := (bs[k]?).getD (stagedRead drawn k)

/-- The length gate lets a string of this length pass (R121). -/
abbrev LengthOk (inp : List Byte) : Prop := 15 ≤ inp.length ∧ inp.length ≤ 31

/-- The identifier of a decoded frame: staged bytes 1..4, byte 1 lowest (R54a, R127). -/
def frameRawId (bs : List Byte) (drawn : Staged) : Word32 :=
  stagedByte bs drawn 4 ++ stagedByte bs drawn 3 ++ stagedByte bs drawn 2 ++ stagedByte bs drawn 1

/-- The DLC of a decoded frame: the low nibble of staged byte 5 (R128). -/
def frameDlc (bs : List Byte) (drawn : Staged) : Nat := (stagedByte bs drawn 5).toNat % 16

/-- The checksum of a decoded frame: the seed and staged bytes 0..5+DLC, folded (R150 to R153). -/
def frameChecksum (cfg : Params) (bs : List Byte) (drawn : Staged) : Byte :=
  fold (sumBytes cfg.checksumSeed ((List.range (6 + frameDlc bs drawn)).map (stagedByte bs drawn)))

/-- The checksum byte a decoded frame carries, at staged offset 6+DLC (R155). -/
def storedChecksum (bs : List Byte) (drawn : Staged) : Byte := stagedByte bs drawn (6 + frameDlc bs drawn)

/-- The 8-byte payload region of a decoded frame, staged offsets 6..13 (R173). -/
def framePayload (bs : List Byte) (drawn : Staged) : Payload :=
  Vector.ofFn (fun i : Fin 8 => stagedByte bs drawn (6 + i.val))

/-- The identifier check passes: IDE set, or no bit of the mask set (R130). -/
abbrev IdLegal (cfg : Params) (rawid : Word32) : Prop :=
  rawid.getLsbD 2 = true ∨ rawid &&& cfg.idCheckMask = 0#32

/-- The `STATUS` a DECODE owes its input, told as the list of R207: the first cause that holds, else OK (R75). -/
def expectedStatus (cfg : Params) (inp : List Byte) (drawn : Staged) : BitVec 3 :=
  if inp.length > 31 then 1#3
  else if inp.length < 15 then 2#3
  else match spelledBytes inp with
    | none => 3#3
    | some bs =>
      if ¬ IdLegal cfg (frameRawId bs drawn) then 4#3
      else if frameDlc bs drawn > 8 then 5#3
      else if frameChecksum cfg bs drawn ≠ storedChecksum bs drawn then 6#3
      else 0#3

/-- A short frame that reaches the checksum: the string passes every earlier check, and the checksum byte is not among
its decoded bytes (R134). -/
def ShortFrame (cfg : Params) (inp : List Byte) (drawn : Staged) : Prop :=
  LengthOk inp ∧ ∃ bs, spelledBytes inp = some bs ∧ IdLegal cfg (frameRawId bs drawn) ∧ frameDlc bs drawn ≤ 8 ∧
    bs.length < 7 + frameDlc bs drawn

/-- The staged bytes drawn for the DECODE that starts in state `s` (R26). -/
abbrev drawnBytes (s : State) : Staged := (Working.drawn s.draws).staged

/-- A DECODE of `inp` in `s` ends with the failure code `code`: STATUS holds it, the frame registers hold no value,
and LK, CMD, the configuration and the host's actions are as before (R200). -/
def DecodeFails (inp : List Byte) (s : State) (code : BitVec 3) : Prop :=
  ∃ w n, exec (.decode inp) s =
    .next { s with work := w, draws := n, status := some code, df := none, sf := none }

/-- The host's next action is the reset signal, `rest` its actions after it: the bytes before the signal, if any, are no
whole request (R230, R235; log 3). -/
def ResetIsNext (s : State) (rest : List HostAction) : Prop :=
  (∀ i r, decode (leadingBytes s.host) ≠ .ok (i, r)) ∧ afterBytes s.host = .reset :: rest

/-- The registers of the DecodedFrame and the SocketFrame (R37, R38). -/
abbrev FrameRegister (r : HostReg) : Prop := r ≠ .status ∧ r ≠ .lk

/-- The host sends whole requests one after another, nothing else (R62, R63). -/
def requests (is : List Instr) : List HostAction := sendBytes (is.flatMap encode)

/-- `k` steps one after another, stopping at the first fault or refusal. -/
def steps : Nat → State → Host.Outcome State Fault Refusal
  | 0, s => .next s
  | k + 1, s =>
    match step s with
    | .next t => steps k t
    | .fault r => .fault r
    | .refused r => .refused r

/-- What the two frames of a successful DECODE owe each other and the configuration (R170 to R174, R177). -/
def FramesAgree (cfg : Params) (d : DecodedFrame) (f : SocketFrame) : Prop :=
  f.dlc = d.dlc ∧ d.dlc.toNat ≤ 8 ∧ f.data = d.data ∧ IdLegal cfg d.id ∧ f.canid = arbitrationId cfg d.id

/-- The invariant of the block: the configuration meets R8; STATUS is never 7 (R75); the frame registers hold values
exactly when STATUS is OK, all of them together (R39, R58), and agree (R177); LK is a word of the table (R36). -/
structure Inv (s : State) : Prop where
  /-- The constraints on the parameters (R8). -/
  legal : s.cfg.Legal
  /-- STATUS is never 7 (R75, U12). -/
  status : s.status ≠ some 7#3
  /-- The DecodedFrame registers hold values exactly when the last DECODE was OK (R39). -/
  df : s.df.isSome = true ↔ s.status = some statusOk
  /-- The SocketFrame registers hold values exactly when the last DECODE was OK (R39). -/
  sf : s.sf.isSome = true ↔ s.status = some statusOk
  /-- The two frames agree (R177). -/
  frames : ∀ d f, s.df = some d → s.sf = some f → FramesAgree s.cfg d f
  /-- LK holds a word of the look-up table (R36). -/
  lk : ∀ v, s.lk = some v → ∃ b, v = lut b

end Sys2Proof.Safety
end

