-- ==== Sys2Proof/Certificates/Slice0/Obligations.lean ====
section
/-! DEFINITION. The statements for the provers. Each docstring names the rule of spec/ it comes from. -/

open Sys2Proof Sys2Proof.Machine Sys2Proof.Safety

/-! ## Encodings -/

/-- R71 to R73: the bytes of a well-formed request decode to it, with every operand at every value, whatever bytes
follow. -/
def Obligations.DecodeInvertsEncode : Prop :=
  ∀ (i : Instr) (rest : List Byte), i.Wf → decode (encode i ++ rest) = .ok (i, rest)

/-- R71 to R73: what the decoder accepts is the encoding of the request it answers, so each request has one spelling. -/
def Obligations.DecodedBytesAreTheEncoding : Prop :=
  ∀ (bs : List Byte) (i : Instr) (rest : List Byte),
    decode bs = .ok (i, rest) → i.Wf ∧ bs = encode i ++ rest

/-- The encodings written out in R87 and in program P5 of 95_test_vectors.md. -/
def Obligations.SpecEncodingsDecode : Prop :=
  decode [0x02#8, 0x61#8] = .ok (.lookup 0x61#8, []) ∧
  decode [0x01#8, 0x30#8, 0x30#8, 0x30#8, 0x30#8, 0x30#8, 0x30#8, 0x30#8, 0x30#8, 0x30#8, 0x30#8, 0x30#8, 0x30#8,
      0x34#8, 0x42#8, 0x0A#8, 0x00#8] =
    .ok (.decode [0x30#8, 0x30#8, 0x30#8, 0x30#8, 0x30#8, 0x30#8, 0x30#8, 0x30#8, 0x30#8, 0x30#8, 0x30#8, 0x30#8,
      0x34#8, 0x42#8, 0x0A#8], []) ∧
  decode [0x07#8] = .error (.reservedCommand 0x07#8)

/-- R83: every command byte but 0x01 and 0x02 is rejected by its value, whatever follows it. -/
def Obligations.ReservedCommandsRejected : Prop :=
  ∀ (c : Byte) (bs : List Byte), c ≠ 0x01#8 → c ≠ 0x02#8 → decode (c :: bs) = .error (.reservedCommand c)

/-- R83, R212: a step on a reserved command byte is refused, so there is no next state. That the request stands at the
front of `State.host` is the model's choice (log 1). -/
def Obligations.ReservedCommandStopsTheRun : Prop :=
  ∀ (s : State) (c : Byte) (rest : List HostAction), s.host = .byte c :: rest →
    c ≠ 0x01#8 → c ≠ 0x02#8 → step s = .refused (.reservedCommand c)

/-- R50, R72, R87: whatever text the notation's reader takes for a line stands for a well-formed request. The text's
exact grammar is the model's choice (log 13). -/
def Obligations.ReadLinesAreWellFormed : Prop :=
  ∀ (cfg : Params) (t : List Byte) (ls : List SourceLine), parseLine t = some ls →
    ∀ l ∈ ls, (expandLine cfg l).Wf

/-! ## The look-up table and LOOKUP -/

/-- R100: the table's contents, as numbers; ERR is bit 4. -/
def Obligations.LutContents : Prop :=
  ∀ b : Byte, lut b =
    if 0x30 ≤ b.toNat ∧ b.toNat ≤ 0x39 then BitVec.ofNat 5 (b.toNat - 0x30)
    else if 0x41 ≤ b.toNat ∧ b.toNat ≤ 0x46 then BitVec.ofNat 5 (b.toNat - 0x41 + 10)
    else if 0x61 ≤ b.toNat ∧ b.toNat ≤ 0x66 then BitVec.ofNat 5 (b.toNat - 0x61 + 10)
    else 0b10000#5

/-- R104: 22 bytes are hex digits; a nibble below 10 has one spelling, another two; every byte is spelled by a pair. -/
def Obligations.LutCounts : Prop :=
  (((List.range 256).map (BitVec.ofNat 8)).filter (fun b => !lutErr (lut b))).length = 22 ∧
  (∀ n : Nibble, (((List.range 256).map (BitVec.ofNat 8)).filter
      (fun b => !lutErr (lut b) && lutNib (lut b) == n)).length = if n.toNat < 10 then 1 else 2) ∧
  (∀ v : Byte, ∃ ch cl, hexpair ch cl = some v)

/-- R102: LOOKUP, encoded as 0x02 and its byte, completes in every state, writes LK with the table's word and nothing
else; LK_ERR is 1 exactly when the byte is no hex digit. -/
def Obligations.LookupCompletes : Prop :=
  ∀ (b : Byte) (s : State), encode (.lookup b) = [0x02#8, b] ∧
    exec (.lookup b) s = .next { s with lk := some (lut b) } ∧
    (lutErr (lut b) = false ↔
      (0x30 ≤ b.toNat ∧ b.toNat ≤ 0x39) ∨ (0x41 ≤ b.toNat ∧ b.toNat ≤ 0x46) ∨ (0x61 ≤ b.toNat ∧ b.toNat ≤ 0x66))

/-- R103: a pair with a character that is no hex digit is ERROR; any other is the byte whose high nibble is the first
character's value. -/
def Obligations.HexpairCombines : Prop :=
  ∀ ch cl : Byte,
    (lutErr (lut ch) = true ∨ lutErr (lut cl) = true → hexpair ch cl = none) ∧
    (lutErr (lut ch) = false → lutErr (lut cl) = false →
      ∃ v, hexpair ch cl = some v ∧ v.toNat = 16 * (lutNib (lut ch)).toNat + (lutNib (lut cl)).toNat)

/-- R77, R88, R103: the upper-case spelling of bytes spells those bytes, pair by pair. -/
def Obligations.HexTextSpellsItsBytes : Prop :=
  ∀ bs : List Byte, pairBytes (hexText bs) = some bs

/-! ## DECODE: failures -/

/-- R201, R200: a string longer than 31 bytes. -/
def Obligations.TooLongFails : Prop :=
  ∀ (inp : List Byte) (s : State), inp.length > 31 → DecodeFails inp s 1#3

/-- R202, R200: a string shorter than 15 bytes. -/
def Obligations.TooShortFails : Prop :=
  ∀ (inp : List Byte) (s : State), inp.length < 15 → DecodeFails inp s 2#3

/-- R203, R200: a character of a decoded pair that is no hex digit. -/
def Obligations.InvalidHexFails : Prop :=
  ∀ (inp : List Byte) (s : State) (i : Nat) (ch cl : Byte), LengthOk inp → i < (inp.length - 1) / 2 →
    inp[2 * i]? = some ch → inp[2 * i + 1]? = some cl →
    lutErr (lut ch) = true ∨ lutErr (lut cl) = true → DecodeFails inp s 3#3

/-- R204, R200: IDE clear and a bit of the mask set. -/
def Obligations.IllegalCanIdFails : Prop :=
  ∀ (inp bs : List Byte) (s : State), LengthOk inp → spelledBytes inp = some bs →
    (frameRawId bs (drawnBytes s)).getLsbD 2 = false →
    frameRawId bs (drawnBytes s) &&& s.cfg.idCheckMask ≠ 0#32 → DecodeFails inp s 4#3

/-- R205, R200: a DLC above 8 in a frame whose identifier is legal. -/
def Obligations.IllegalDlcFails : Prop :=
  ∀ (inp bs : List Byte) (s : State), LengthOk inp → spelledBytes inp = some bs →
    IdLegal s.cfg (frameRawId bs (drawnBytes s)) → frameDlc bs (drawnBytes s) > 8 → DecodeFails inp s 5#3

/-- R206, R200: a checksum byte that differs from the folded sum, decoded bytes and draws alike. -/
def Obligations.ChecksumErrorFails : Prop :=
  ∀ (inp bs : List Byte) (s : State), LengthOk inp → spelledBytes inp = some bs →
    IdLegal s.cfg (frameRawId bs (drawnBytes s)) → frameDlc bs (drawnBytes s) ≤ 8 →
    frameChecksum s.cfg bs (drawnBytes s) ≠ storedChecksum bs (drawnBytes s) → DecodeFails inp s 6#3

/-- R207, R75: DECODE completes on every string in every state, and STATUS names the first cause that holds in the
order of the rule, or OK. -/
def Obligations.FirstCauseWins : Prop :=
  ∀ (inp : List Byte) (s : State),
    ∃ t, exec (.decode inp) s = .next t ∧ t.status = some (expectedStatus s.cfg inp (drawnBytes s))

/-- R39, R176, R200: after a DECODE whose outcome is not OK no frame register holds a value; whatever the outcome, LK,
CMD, the configuration and the host's actions are unchanged. -/
def Obligations.FailureEmptiesFrames : Prop :=
  ∀ (inp : List Byte) (s : State), ∃ t, exec (.decode inp) s = .next t ∧
    (t.status ≠ some 0#3 → t.df = none ∧ t.sf = none) ∧
    t.lk = s.lk ∧ t.cmd = s.cmd ∧ t.cfg = s.cfg ∧ t.host = s.host

/-! ## DECODE: success -/

/-- R170 to R175: a frame that passes every check leaves STATUS 0 and every frame register at the value the rules give,
and nothing else but the working registers is written. -/
def Obligations.ValidFrameDecodes : Prop :=
  ∀ (inp bs : List Byte) (s : State), LengthOk inp → spelledBytes inp = some bs →
    IdLegal s.cfg (frameRawId bs (drawnBytes s)) → frameDlc bs (drawnBytes s) ≤ 8 →
    frameChecksum s.cfg bs (drawnBytes s) = storedChecksum bs (drawnBytes s) →
    ∃ w n, exec (.decode inp) s = .next
      { s with
        work := w
        draws := n
        status := some 0#3
        df := some {
          seq := stagedByte bs (drawnBytes s) 0
          id := frameRawId bs (drawnBytes s)
          dlc := BitVec.ofNat 8 (frameDlc bs (drawnBytes s))
          data := framePayload bs (drawnBytes s) }
        sf := some {
          canid :=
            if (frameRawId bs (drawnBytes s)).getLsbD 2 then
              (frameRawId bs (drawnBytes s) >>> 3) ||| s.cfg.effFlag |||
                (if (frameRawId bs (drawnBytes s)).getLsbD 1 then s.cfg.rtrFlag else 0#32)
            else
              (frameRawId bs (drawnBytes s) >>> 21) |||
                (if (frameRawId bs (drawnBytes s)).getLsbD 1 then s.cfg.rtrFlag else 0#32)
          dlc := BitVec.ofNat 8 (frameDlc bs (drawnBytes s))
          data := framePayload bs (drawnBytes s) } }

/-- R88, R178: DECODE.F of a legal frame under the configured seed decodes to OK, and the DecodedFrame reproduces its
operands. -/
def Obligations.DecodeFRoundTrip : Prop :=
  ∀ (s : State) (seq : Byte) (rawid : Word32) (dlcByte : Byte) (payload : List Byte),
    IdLegal s.cfg rawid → dlcByte.toNat % 16 ≤ 8 → payload.length = dlcByte.toNat % 16 →
    ∃ t d, exec (expandLine s.cfg (.decodeF seq rawid dlcByte payload)) s = .next t ∧
      t.status = some 0#3 ∧ t.df = some d ∧ d.seq = seq ∧ d.id = rawid ∧ d.dlc.toNat = dlcByte.toNat % 16 ∧
      ∀ i : Fin 8, i.val < payload.length → payload[i.val]? = some (d.data.get i)

/-- R78, R88: DECODE.F always expands to a well-formed DECODE, of 15 + 2m bytes for m payload bytes. -/
def Obligations.DecodeFIsWellFormed : Prop :=
  ∀ (cfg : Params) (seq : Byte) (rawid : Word32) (dlcByte : Byte) (payload : List Byte),
    (expandLine cfg (.decodeF seq rawid dlcByte payload)).Wf ∧
    (frameText cfg seq rawid dlcByte payload).length = 15 + 2 * payload.length

/-! ## DECODE: what it reads -/

/-- R123, R124, R26: after the loop the staged buffer holds the spelled bytes from offset 0 and this operation's draws
at every other offset, and N is the pair count, 7..15. That they can be read out of the state after the whole DECODE,
also after a later failure, is the model's choice (log 7, DEDUCED). -/
def Obligations.StagedBufferAfterLoop : Prop :=
  ∀ (inp bs : List Byte) (s : State), LengthOk inp → spelledBytes inp = some bs →
    ∃ t, exec (.decode inp) s = .next t ∧
      (∀ k, k < 16 → stagedRead t.work.staged k = stagedByte bs (drawnBytes s) k) ∧
      t.work.n.toNat = (inp.length - 1) / 2 ∧ bs.length = (inp.length - 1) / 2 ∧
      7 ≤ t.work.n.toNat ∧ t.work.n.toNat ≤ 15

/-- R124: the sequence number, the identifier and the DLC that the stages extract never come from a draw: whatever two
operations find in the working registers, they extract the same. That a later failing stage leaves them as extracted is
the model's choice (log 7, DEDUCED). -/
def Obligations.HeaderFieldsAreNeverDrawn : Prop :=
  ∀ (cfg : Params) (inp bs : List Byte) (w w' : Working), LengthOk inp → spelledBytes inp = some bs →
    (decodeStages cfg inp w).1.seq = (decodeStages cfg inp w').1.seq ∧
    (decodeStages cfg inp w).1.rawid = (decodeStages cfg inp w').1.rawid ∧
    (decodeStages cfg inp w).1.dlc = (decodeStages cfg inp w').1.dlc

/-- R26, for every number the counter may hold: a DECODE takes one draw number, the next DECODE another, and the staged
bytes it does not decode hold the draws of its own number, whatever its outcome. The counter is the model's own field
(log 6), and that the buffer can be read after the DECODE is the model's choice (log 7, DEDUCED). -/
def Obligations.DecodeTakesItsOwnDraws : Prop :=
  ∀ (inp : List Byte) (s : State), ∃ t, exec (.decode inp) s = .next t ∧ t.draws = s.draws + 1 ∧
    ∀ k, k < 16 → (inp.length - 1) / 2 ≤ k → stagedRead t.work.staged k = Config.drawStaged s.draws k

/-- R127: the OR of the four shifted bytes is the little-endian read of four bytes at offset 1, and their sum. -/
def Obligations.RawIdentifierIsLittleEndian : Prop :=
  ∀ st : Staged,
    rawIdentifier st = ((stagedRead st 1).zeroExtend 32 ||| ((stagedRead st 2).zeroExtend 32 <<< 8)
      ||| ((stagedRead st 3).zeroExtend 32 <<< 16) ||| ((stagedRead st 4).zeroExtend 32 <<< 24)) ∧
    rawIdentifier st = memRead st 1 4 ∧
    rawIdentifier st = (stagedRead st 1).zeroExtend 32 + ((stagedRead st 2).zeroExtend 32 <<< 8)
      + ((stagedRead st 3).zeroExtend 32 <<< 16) + ((stagedRead st 4).zeroExtend 32 <<< 24)

/-- R125: the last byte of the string never affects a DECODE. -/
def Obligations.TerminatorIsNeverInspected : Prop :=
  ∀ (body : List Byte) (a b : Byte) (s : State),
    exec (.decode (body ++ [a])) s = exec (.decode (body ++ [b])) s

/-- R122: where the length is even, the character before the terminator never affects a DECODE. -/
def Obligations.UnpairedCharacterIsIgnored : Prop :=
  ∀ (body : List Byte) (x y z : Byte) (s : State), body.length % 2 = 0 →
    exec (.decode (body ++ [x, z])) s = exec (.decode (body ++ [y, z])) s

/-- R133: the pairs after the checksum byte are hex-checked but enter no check. -/
def Obligations.ExtraPairsAreNotChecked : Prop :=
  ∀ (cfg : Params) (inp inp' bs extra extra' : List Byte) (w w' : Working), LengthOk inp → LengthOk inp' →
    spelledBytes inp = some (bs ++ extra) → spelledBytes inp' = some (bs ++ extra') →
    bs.length = 7 + frameDlc bs w.staged →
    (decodeStages cfg inp w).2 = (decodeStages cfg inp' w').2

/-- R134: where the checksum byte is not among the decoded bytes, some draws give OK and some ChecksumError. -/
def Obligations.ShortFrameAdmitsBothOutcomes : Prop :=
  ∀ (cfg : Params) (inp bs : List Byte) (d : Staged), LengthOk inp → spelledBytes inp = some bs →
    IdLegal cfg (frameRawId bs d) → frameDlc bs d ≤ 8 → bs.length < 7 + frameDlc bs d →
    (∃ w, (decodeStages cfg inp w).2 = none) ∧ (∃ w, (decodeStages cfg inp w).2 = some .checksumError)

/-- R25: staged offset 15 is never written and never read: it holds the draw afterwards, and nothing a DECODE answers
depends on it. -/
def Obligations.OffsetFifteenIsUnused : Prop :=
  ∀ (cfg : Params) (inp : List Byte) (w w' : Working),
    stagedRead (decodeStages cfg inp w).1.staged 15 = stagedRead w.staged 15 ∧
    ((∀ k, k < 15 → stagedRead w.staged k = stagedRead w'.staged k) →
      (decodeStages cfg inp w).2 = (decodeStages cfg inp w').2 ∧
      ((decodeStages cfg inp w).2 = none →
        socketFrameOf cfg (decodeStages cfg inp w).1 = socketFrameOf cfg (decodeStages cfg inp w').1 ∧
        decodedFrameOf (decodeStages cfg inp w).1 = decodedFrameOf (decodeStages cfg inp w').1))

/-! ## The identifier check, the checksum and the repacker -/

/-- R130: the check fails exactly when IDE is clear and a bit of the mask is set; under the default mask that is a bit
of 16..3. -/
def Obligations.IdentifierCheckBits : Prop :=
  ∀ (cfg : Params) (rawid : Word32),
    (idIllegal cfg rawid = true ↔ rawid.getLsbD 2 = false ∧ rawid &&& cfg.idCheckMask ≠ 0#32) ∧
    (cfg.idCheckMask = 0x0001FFFC#32 →
      (idIllegal cfg rawid = true ↔
        rawid.getLsbD 2 = false ∧ ∃ k, 3 ≤ k ∧ k ≤ 16 ∧ rawid.getLsbD k = true))

/-- R151, R152: the accumulator is the seed plus the staged bytes, each once, modulo 2^32; with at most 14 bytes it
wraps only from a seed above 0xFFFFFFFF - 0xDF2. -/
def Obligations.AccumulatorIsModularSum : Prop :=
  ∀ (seed : Word32) (st : Staged) (n : Nat),
    (sumStaged seed st n).toNat =
      (seed.toNat + ((List.range n).map (fun k => (stagedRead st k).toNat)).sum) % 2 ^ 32 ∧
    (n ≤ 14 → seed.toNat ≤ 0xFFFFFFFF - 0xDF2 →
      (sumStaged seed st n).toNat = seed.toNat + ((List.range n).map (fun k => (stagedRead st k).toNat)).sum)

/-- R153: the fold as four additions of numbers, each within the rule's bound; the last one is the byte. -/
def Obligations.FoldIsFourAdditions : Prop :=
  ∀ (a : Word32) (t1 t2 t3 t4 : Nat),
    t1 = a.toNat % 65536 + a.toNat / 65536 → t2 = t1 % 65536 + t1 / 65536 →
    t3 = t2 % 256 + t2 / 256 → t4 = t3 % 256 + t3 / 256 →
    (fold a).toNat = t4 ∧ t1 ≤ 0x1FFFE ∧ t2 ≤ 0xFFFF ∧ t3 ≤ 0x1FE ∧ t4 ≤ 0xFF

/-- R154: the fold is the residue modulo 255, with 255 in place of 0 for every value but 0. -/
def Obligations.FoldIsResidueModulo255 : Prop :=
  ∀ a : Word32, (fold a).toNat =
    if a = 0#32 then 0 else if a.toNat % 255 = 0 then 255 else a.toNat % 255

/-- R157: a change of the sum goes undetected exactly when it keeps the sum modulo 255 and moves it neither to nor
from 0. -/
def Obligations.UndetectedChanges : Prop :=
  ∀ a b : Word32, fold a = fold b ↔ a.toNat % 255 = b.toNat % 255 ∧ (a = 0#32 ↔ b = 0#32)

/-- R8, R81, R170, R171: under legal flags the identifier stands in bits 28..0 of the arbitration id and each flag is
set exactly when its bit of the raw identifier is; under the default flags bit 29 is clear. -/
def Obligations.ArbitrationIdLayout : Prop :=
  ∀ (cfg : Params) (rawid : Word32), cfg.Legal →
    (rawid.getLsbD 2 = true → arbitrationId cfg rawid &&& 0x1FFFFFFF#32 = rawid >>> 3) ∧
    (rawid.getLsbD 2 = false → arbitrationId cfg rawid &&& 0x1FFFFFFF#32 = rawid >>> 21) ∧
    (arbitrationId cfg rawid &&& cfg.effFlag ≠ 0#32 ↔ rawid.getLsbD 2 = true) ∧
    (arbitrationId cfg rawid &&& cfg.rtrFlag ≠ 0#32 ↔ rawid.getLsbD 1 = true) ∧
    (cfg.effFlag = 0x80000000#32 → cfg.rtrFlag = 0x40000000#32 → (arbitrationId cfg rawid).getLsbD 29 = false)

/-! ## One request and another -/

/-- R237: two DECODEs of one string under one configuration give the same outcome, unless the frame is a short one
whose outcome R134 leaves to the draws; where both are OK they give the same frame registers, short frame or not, but
for the payload bytes at staged offsets N and above. -/
def Obligations.DecodeIsIdempotent : Prop :=
  ∀ (inp : List Byte) (s t : State), s.cfg = t.cfg →
    ∃ s' t', exec (.decode inp) s = .next s' ∧ exec (.decode inp) t = .next t' ∧
      (¬ ShortFrame s.cfg inp (drawnBytes s) →
        s'.status = t'.status ∧ s'.df.isSome = t'.df.isSome ∧ s'.sf.isSome = t'.sf.isSome) ∧
      (∀ d d', s'.df = some d → t'.df = some d' →
        d.seq = d'.seq ∧ d.id = d'.id ∧ d.dlc = d'.dlc ∧
        ∀ i : Fin 8, 6 + i.val < (inp.length - 1) / 2 → d.data.get i = d'.data.get i) ∧
      (∀ f f', s'.sf = some f → t'.sf = some f' →
        f.canid = f'.canid ∧ f.dlc = f'.dlc ∧
        ∀ i : Fin 8, 6 + i.val < (inp.length - 1) / 2 → f.data.get i = f'.data.get i)

/-- R231, R233: what a request answers depends on its operand, the configuration and its own draws alone; the other
registers of the state it starts in do not matter. -/
def Obligations.EarlierRequestsDoNotMatter : Prop :=
  ∀ (i : Instr) (s t : State), s.cfg = t.cfg → s.draws = t.draws →
    ∃ s' t', exec i s = .next s' ∧ exec i t = .next t' ∧
      (∀ inp, i = .decode inp → s'.status = t'.status ∧ s'.df = t'.df ∧ s'.sf = t'.sf) ∧
      (∀ b, i = .lookup b → s'.lk = t'.lk)

/-! ## Reset and the host -/

/-- R40, R43, R230: right after reset no response register holds a value, so the host can read none. That State.reset
takes the defaults of R7 for the mask and the flags is the model's choice (log 5; the seed is open); they meet R8. -/
def Obligations.ResetLeavesNoValues : Prop :=
  (∀ r, readReg r State.reset = none) ∧ State.reset.cmd = none ∧ State.reset.status = none ∧
  State.reset.lk = none ∧ State.reset.df = none ∧ State.reset.sf = none ∧
  State.reset.cfg.idCheckMask = 0x0001FFFC#32 ∧ State.reset.cfg.effFlag = 0x80000000#32 ∧
  State.reset.cfg.rtrFlag = 0x40000000#32 ∧ State.reset.cfg.Legal

/-- R230, R235: the reset signal empties CMD and every response register and keeps the configuration. That the signal
is an action in `State.host` is the model's choice (log 1). -/
def Obligations.ResetSignalEmptiesRegisters : Prop :=
  ∀ (s : State) (rest : List HostAction), s.host = .reset :: rest →
    ∃ t, step s = .next t ∧ t.cfg = s.cfg ∧ t.host = rest ∧ t.cmd = none ∧ ∀ r, readReg r t = none

/-- R35, R36, R39, R40: a host read of a register with no value faults and names it. That the read is an action in
`State.host` is the model's choice (log 1). -/
def Obligations.ReadOfNoValueFaults : Prop :=
  ∀ (s : State) (r : HostReg) (rest : List HostAction), s.host = .read r :: rest →
    readReg r s = none → step s = .fault (.noValue r)

/-- R59: a host read of a register that holds a value changes nothing in the block. That the read is an action in
`State.host` is the model's choice (log 1). -/
def Obligations.ReadHasNoSideEffect : Prop :=
  ∀ (s : State) (r : HostReg) (rest : List HostAction) (v : BitVec 64), s.host = .read r :: rest →
    readReg r s = some v → step s = .next { s with host := rest }

/-- R54(c), R55: the 64-bit view of DF_DATA and its eight bytes agree, byte i in bits 8i+7..8i. -/
def Obligations.PayloadViewsAgree : Prop :=
  ∀ (s : State) (f : DecodedFrame), s.df = some f →
    ∃ v, readReg .dfData64 s = some v ∧
      ∀ i : Fin 8, readReg (.dfData i) s = some ((v >>> (8 * i.val)) &&& 0xFF#64)

/-- R39, R40: where the invariant holds, a frame register can be read exactly while STATUS is OK. -/
def Obligations.FramesReadableExactlyAfterOk : Prop :=
  ∀ (s : State) (r : HostReg), Inv s → FrameRegister r →
    ((readReg r s).isSome = true ↔ s.status = some 0#3)

/-! ## The step -/

/-- R5, R34, R62: when the bytes the host sends decode to a request, the step is that request's meaning, with CMD at its
command byte and the bytes after it left to the host's actions (log 1, log 11). -/
def Obligations.StepRunsTheDecodedRequest : Prop :=
  ∀ (s : State) (i : Instr) (rest : List Byte), decode (leadingBytes s.host) = .ok (i, rest) →
    step s = exec i { s with cmd := some (commandByte i), host := sendBytes rest ++ afterBytes s.host }

/-- R62, R70 to R73: a well-formed request at the front of the host's actions is served whole, whatever follows. That
the request stands at the front of `State.host` (log 1) and that the step which serves it sets CMD (log 11) are the
model's choices. -/
def Obligations.StepServesASentRequest : Prop :=
  ∀ (s : State) (i : Instr) (rest : List HostAction), i.Wf → s.host = sendBytes (encode i) ++ rest →
    step s = exec i { s with cmd := some (commandByte i), host := rest }

/-- The model's choice (log 2): a block with nothing to do stays as it is. -/
def Obligations.IdleBlockStays : Prop :=
  ∀ s : State, s.host = [] → step s = .next s

/-- The model's choice (log 3): a request that is begun and not complete waits while the host does nothing more, is gone
when the host resets the block (R230), and a read before it is complete stops (R63, R234a, U20). -/
def Obligations.IncompleteRequestWaits : Prop :=
  ∀ (s : State) (e : DecodeError), leadingBytes s.host ≠ [] → decode (leadingBytes s.host) = .error e →
    (∀ c, e ≠ .reservedCommand c) →
    (afterBytes s.host = [] → step s = .next s) ∧
    (∀ rest, afterBytes s.host = .reset :: rest → step s = .next (resetEvent rest s)) ∧
    (∀ r rest, afterBytes s.host = .read r :: rest → step s = .fault .readDuringRequest)

/-- R7, R20(a): no step changes the configuration. -/
def Obligations.ConfigurationIsFixed : Prop :=
  ∀ s t : State, step s = .next t → t.cfg = s.cfg

/-- R35, R36, R37, R38: STATUS and the frame registers change only by a DECODE or a reset, LK only by a LOOKUP or a
reset. That requests and resets stand in `State.host` is the model's choice (log 1). -/
def Obligations.ResponseRegistersHaveOneWriter : Prop :=
  ∀ s t : State, step s = .next t →
    (t.status ≠ s.status ∨ t.df ≠ s.df ∨ t.sf ≠ s.sf →
      (∃ inp rest, decode (leadingBytes s.host) = .ok (.decode inp, rest)) ∨
      ∃ rest, ResetIsNext s rest ∧ t = resetEvent rest s) ∧
    (t.lk ≠ s.lk →
      (∃ b rest, decode (leadingBytes s.host) = .ok (.lookup b, rest)) ∨
      ∃ rest, ResetIsNext s rest ∧ t = resetEvent rest s)

/-- R20(c), R26, R43, R102: a step that serves a DECODE and a step that serves a reset take one draw number each, so no
number is drawn twice; a reset leaves the draws of its number in the working registers; every other step leaves the
number and the working registers alone. The counter is the model's own field (log 6), the host's actions its own list
(log 1). -/
def Obligations.DrawNumbersAreUsedOnce : Prop :=
  ∀ s t : State, step s = .next t →
    (∀ inp rest, decode (leadingBytes s.host) = .ok (.decode inp, rest) → t.draws = s.draws + 1) ∧
    (∀ rest, ResetIsNext s rest → t.draws = s.draws + 1 ∧ t.work = Working.drawn s.draws) ∧
    ((∀ inp rest, decode (leadingBytes s.host) ≠ .ok (.decode inp, rest)) → (∀ rest, ¬ ResetIsNext s rest) →
      t.draws = s.draws ∧ t.work = s.work)

/-- R8, R39, R58, R75, R177: the invariant holds right after reset. -/
def Obligations.InvariantAtReset : Prop := Inv State.reset

/-- R8, R39, R58, R75, R177: every step keeps the invariant, from every state that meets it. -/
def Obligations.StepKeepsInvariant : Prop :=
  ∀ s t : State, Inv s → step s = .next t → Inv t

/-- R62, R211, R236: a host that sends any well-formed requests one after another has every one of them completed, one
step each, with no fault and no refusal. That the requests stand one after another in `State.host` is the model's choice
(log 1). -/
def Obligations.EveryRequestCompletes : Prop :=
  ∀ (is : List Instr) (s : State), (∀ i ∈ is, i.Wf) → s.host = requests is →
    ∃ t, steps is.length s = .next t ∧ t.host = []
end

