-- ==== Sys2Proof/Laws/Decode.lean ====
section
/-! SUPPORT. What the parts of the decoder and the encoder do. -/

namespace Sys2Proof

/-- The fields of the two command bytes, and what they say of any byte (R70, R71). -/
theorem command_fields (c : Byte) :
    (commandRsv c = 0#4 ∧ commandOp c = 0x1#4 ↔ c = 0x01#8) ∧
    (commandRsv c = 0#4 ∧ commandOp c = 0x2#4 ↔ c = 0x02#8) := by
  revert c
  decide

/-- A string without 0x00, its end byte and any bytes after it (R72). -/
theorem splitAtNul_append {inp : List Byte} (rest : List Byte) (h : ∀ b ∈ inp, b ≠ 0#8) :
    splitAtNul (inp ++ 0#8 :: rest) = some (inp, rest) := by
  induction inp with
  | nil => simp [splitAtNul]
  | cons b bs ih =>
    simp only [List.cons_append, splitAtNul, if_neg (h b (by simp)), ih (fun x hx => h x (by simp [hx])), Option.map_some]

/-- What a split answers: the string holds no 0x00, and the bytes are the string, 0x00 and the rest (R72). -/
theorem splitAtNul_some : ∀ {bs inp rest : List Byte}, splitAtNul bs = some (inp, rest) →
    (∀ b ∈ inp, b ≠ 0#8) ∧ bs = inp ++ 0#8 :: rest
  | [], _, _, h => by simp [splitAtNul] at h
  | b :: bs, inp, rest, h => by
    simp only [splitAtNul] at h
    split at h
    · next hb =>
      obtain ⟨rfl, rfl⟩ := Prod.mk.inj (Option.some.inj h)
      simp [hb]
    · next hb =>
      obtain ⟨⟨i', r'⟩, hs, heq⟩ := Option.map_eq_some_iff.mp h
      obtain ⟨rfl, rfl⟩ := Prod.mk.inj heq
      obtain ⟨h1, rfl⟩ := splitAtNul_some hs
      simp only [List.mem_cons, List.cons_append, and_true]
      rintro x (rfl | hx)
      · exact hb
      · exact h1 x hx

/-- A well-formed DECODE's string holds no 0x00 (R50). -/
theorem wf_decode_iff (inp : List Byte) : (Instr.decode inp).Wf ↔ ∀ b ∈ inp, b ≠ 0#8 := by
  simp [Instr.Wf, Instr.wf]

/-- A DECODE's command byte selects the string operand (R71). -/
theorem decode_decodeCommand (bs : List Byte) : decode (0x01#8 :: bs) = decodeString bs := rfl

/-- A LOOKUP's command byte selects the byte operand (R71). -/
theorem decode_lookupCommand (bs : List Byte) : decode (0x02#8 :: bs) = decodeOperandByte bs := rfl

end Sys2Proof
end

