-- ==== Sys2Proof/Laws/State.lean ====
section
/-! SUPPORT. One lemma per field of State per named update, each true by unfolding, so that no later proof unfolds a
record update. -/

namespace Sys2Proof.Machine

/-! The start of a DECODE. -/

section
variable (s : State)

@[simp] theorem startDecode_cfg : (startDecode s).cfg = s.cfg := rfl
@[simp] theorem startDecode_cmd : (startDecode s).cmd = s.cmd := rfl
@[simp] theorem startDecode_work : (startDecode s).work = Working.drawn s.draws := rfl
@[simp] theorem startDecode_status : (startDecode s).status = s.status := rfl
@[simp] theorem startDecode_lk : (startDecode s).lk = s.lk := rfl
@[simp] theorem startDecode_df : (startDecode s).df = s.df := rfl
@[simp] theorem startDecode_sf : (startDecode s).sf = s.sf := rfl
@[simp] theorem startDecode_draws : (startDecode s).draws = s.draws + 1 := rfl
@[simp] theorem startDecode_host : (startDecode s).host = s.host := rfl

end

/-! A failed DECODE. -/

section
variable (c : FailCode) (w : Working) (s : State)

@[simp] theorem failDecode_cfg : (failDecode c w s).cfg = s.cfg := rfl
@[simp] theorem failDecode_cmd : (failDecode c w s).cmd = s.cmd := rfl
@[simp] theorem failDecode_work : (failDecode c w s).work = w := rfl
@[simp] theorem failDecode_status : (failDecode c w s).status = some (statusOf c) := rfl
@[simp] theorem failDecode_lk : (failDecode c w s).lk = s.lk := rfl
@[simp] theorem failDecode_df : (failDecode c w s).df = none := rfl
@[simp] theorem failDecode_sf : (failDecode c w s).sf = none := rfl
@[simp] theorem failDecode_draws : (failDecode c w s).draws = s.draws := rfl
@[simp] theorem failDecode_host : (failDecode c w s).host = s.host := rfl

end

/-! A successful DECODE. -/

section
variable (w : Working) (s : State)

@[simp] theorem commitDecode_cfg : (commitDecode w s).cfg = s.cfg := rfl
@[simp] theorem commitDecode_cmd : (commitDecode w s).cmd = s.cmd := rfl
@[simp] theorem commitDecode_work : (commitDecode w s).work = w := rfl
@[simp] theorem commitDecode_status : (commitDecode w s).status = some statusOk := rfl
@[simp] theorem commitDecode_lk : (commitDecode w s).lk = s.lk := rfl
@[simp] theorem commitDecode_df : (commitDecode w s).df = some (decodedFrameOf w) := rfl
@[simp] theorem commitDecode_sf : (commitDecode w s).sf = some (socketFrameOf s.cfg w) := rfl
@[simp] theorem commitDecode_draws : (commitDecode w s).draws = s.draws := rfl
@[simp] theorem commitDecode_host : (commitDecode w s).host = s.host := rfl

end

/-! A request taken from the host. -/

section
variable (i : Instr) (rest : List Byte) (s : State)

@[simp] theorem acceptRequest_cfg : (acceptRequest i rest s).cfg = s.cfg := rfl
@[simp] theorem acceptRequest_cmd : (acceptRequest i rest s).cmd = some (commandByte i) := rfl
@[simp] theorem acceptRequest_work : (acceptRequest i rest s).work = s.work := rfl
@[simp] theorem acceptRequest_status : (acceptRequest i rest s).status = s.status := rfl
@[simp] theorem acceptRequest_lk : (acceptRequest i rest s).lk = s.lk := rfl
@[simp] theorem acceptRequest_df : (acceptRequest i rest s).df = s.df := rfl
@[simp] theorem acceptRequest_sf : (acceptRequest i rest s).sf = s.sf := rfl
@[simp] theorem acceptRequest_draws : (acceptRequest i rest s).draws = s.draws := rfl
@[simp] theorem acceptRequest_host : (acceptRequest i rest s).host = sendBytes rest ++ afterBytes s.host := rfl

end

/-! The reset event. -/

section
variable (rest : List HostAction) (s : State)

@[simp] theorem resetEvent_cfg : (resetEvent rest s).cfg = s.cfg := rfl
@[simp] theorem resetEvent_cmd : (resetEvent rest s).cmd = none := rfl
@[simp] theorem resetEvent_work : (resetEvent rest s).work = Working.drawn s.draws := rfl
@[simp] theorem resetEvent_status : (resetEvent rest s).status = none := rfl
@[simp] theorem resetEvent_lk : (resetEvent rest s).lk = none := rfl
@[simp] theorem resetEvent_df : (resetEvent rest s).df = none := rfl
@[simp] theorem resetEvent_sf : (resetEvent rest s).sf = none := rfl
@[simp] theorem resetEvent_draws : (resetEvent rest s).draws = s.draws + 1 := rfl
@[simp] theorem resetEvent_host : (resetEvent rest s).host = rest := rfl

end

/-! The idle state. -/

section
variable (cfg : Params) (op : Nat)

@[simp] theorem idle_cfg : (State.idle cfg op).cfg = cfg := rfl
@[simp] theorem idle_cmd : (State.idle cfg op).cmd = none := rfl
@[simp] theorem idle_work : (State.idle cfg op).work = Working.drawn op := rfl
@[simp] theorem idle_status : (State.idle cfg op).status = none := rfl
@[simp] theorem idle_lk : (State.idle cfg op).lk = none := rfl
@[simp] theorem idle_df : (State.idle cfg op).df = none := rfl
@[simp] theorem idle_sf : (State.idle cfg op).sf = none := rfl
@[simp] theorem idle_draws : (State.idle cfg op).draws = op + 1 := rfl
@[simp] theorem idle_host : (State.idle cfg op).host = [] := rfl

end

/-! A request put at the front of the host's actions. -/

section
variable (s : State) (nbits w : Nat)

@[simp] theorem withFetchWord_cfg : (s.withFetchWord nbits w).cfg = s.cfg := rfl
@[simp] theorem withFetchWord_cmd : (s.withFetchWord nbits w).cmd = s.cmd := rfl
@[simp] theorem withFetchWord_work : (s.withFetchWord nbits w).work = s.work := rfl
@[simp] theorem withFetchWord_status : (s.withFetchWord nbits w).status = s.status := rfl
@[simp] theorem withFetchWord_lk : (s.withFetchWord nbits w).lk = s.lk := rfl
@[simp] theorem withFetchWord_df : (s.withFetchWord nbits w).df = s.df := rfl
@[simp] theorem withFetchWord_sf : (s.withFetchWord nbits w).sf = s.sf := rfl
@[simp] theorem withFetchWord_draws : (s.withFetchWord nbits w).draws = s.draws := rfl
@[simp] theorem withFetchWord_host : (s.withFetchWord nbits w).host = sendBytes (tableRequest nbits w) ++ s.host := rfl

end

/-! The stages' own parts of a frame. -/

@[simp] theorem socketFrameOf_canid (cfg : Params) (w : Working) :
    (socketFrameOf cfg w).canid = arbitrationId cfg w.rawid := rfl
@[simp] theorem socketFrameOf_dlc (cfg : Params) (w : Working) : (socketFrameOf cfg w).dlc = w.dlc.setWidth 8 := rfl
@[simp] theorem socketFrameOf_data (cfg : Params) (w : Working) :
    (socketFrameOf cfg w).data = payloadRegion w.staged := rfl
@[simp] theorem decodedFrameOf_seq (w : Working) : (decodedFrameOf w).seq = w.seq := rfl
@[simp] theorem decodedFrameOf_id (w : Working) : (decodedFrameOf w).id = w.rawid := rfl
@[simp] theorem decodedFrameOf_dlc (w : Working) : (decodedFrameOf w).dlc = w.dlc.setWidth 8 := rfl
@[simp] theorem decodedFrameOf_data (w : Working) : (decodedFrameOf w).data = payloadRegion w.staged := rfl

end Sys2Proof.Machine
end

