-- ==== Sys2Proof/Laws/Ops.lean ====
section
/-! SUPPORT. What the shared operations do: the staged buffer, stages, hex pairs, the sum. -/

namespace Sys2Proof.Machine

@[simp] theorem stageThen_none (w : Working) (f : Working → StageResult) : stageThen (w, none) f = f w := rfl

@[simp] theorem stageThen_some (w : Working) (c : FailCode) (f : Working → StageResult) :
    stageThen (w, some c) f = (w, some c) := rfl

/-- A chain of stages ends without a failure exactly when each of its parts does. -/
theorem stageThen_snd_eq_none {r : StageResult} {f : Working → StageResult} :
    (stageThen r f).2 = none ↔ r.2 = none ∧ (f r.1).2 = none := by
  obtain ⟨w, _ | c⟩ := r <;> simp

theorem stagedOffset_val {k : Nat} (h : k < 16) : (stagedOffset k).val = k := by
  simp [stagedOffset, Fin.ofNat, Nat.mod_eq_of_lt h]

theorem stagedRead_eq {k : Nat} (h : k < 16) (st : Staged) : stagedRead st k = st[k] := by
  simp [stagedRead, Vector.get_eq_getElem, stagedOffset_val h]

/-- A byte read after it was written. -/
@[simp] theorem stagedRead_stagedWrite_self (st : Staged) (k : Nat) (v : Byte) :
    stagedRead (stagedWrite st k v) k = v := by
  simp [stagedRead, stagedWrite, Vector.get_eq_getElem]

/-- A write leaves every other offset alone. -/
theorem stagedRead_stagedWrite_ne {j k : Nat} (hj : j < 16) (hk : k < 16) (h : j ≠ k) (st : Staged) (v : Byte) :
    stagedRead (stagedWrite st k v) j = stagedRead st j := by
  rw [stagedRead_eq hj, stagedRead_eq hj, stagedWrite, Vector.getElem_set]
  simp [stagedOffset_val hk, Ne.symm h]

/-- Staged buffers are equal when their 16 bytes are. -/
theorem staged_ext {st st' : Staged} (h : ∀ k, k < 16 → stagedRead st k = stagedRead st' k) : st = st' := by
  apply Vector.ext
  intro k hk
  simpa only [stagedRead_eq hk] using h k hk

/-- The pair function never answers for a character that is no hex digit. -/
theorem hexpair_eq_none_iff (ch cl : Byte) :
    hexpair ch cl = none ↔ lutErr (lut ch) = true ∨ lutErr (lut cl) = true := by
  simp only [hexpair]
  split <;> simp_all

@[simp] theorem sumStaged_zero (acc : Word32) (st : Staged) : sumStaged acc st 0 = acc := rfl

@[simp] theorem sumStaged_succ (acc : Word32) (st : Staged) (n : Nat) :
    sumStaged acc st (n + 1) = sumStaged acc st n + (stagedRead st n).setWidth 32 := rfl

/-- The sum depends on the bytes it adds alone. -/
theorem sumStaged_congr {st st' : Staged} (acc : Word32) {n : Nat}
    (h : ∀ k, k < n → stagedRead st k = stagedRead st' k) : sumStaged acc st n = sumStaged acc st' n := by
  induction n with
  | zero => rfl
  | succ n ih => simp [ih (fun k hk => h k (by omega)), h n (by omega)]

theorem sumBytes_append (acc : Word32) (xs ys : List Byte) :
    sumBytes acc (xs ++ ys) = sumBytes (sumBytes acc xs) ys := by
  induction xs generalizing acc with
  | nil => rfl
  | cons x xs ih => simp [sumBytes, ih]

/-- The machine's sum over the staged buffer is the sum of the list of the bytes it reads. -/
theorem sumStaged_eq_sumBytes (acc : Word32) (st : Staged) (n : Nat) :
    sumStaged acc st n = sumBytes acc ((List.range n).map (stagedRead st)) := by
  induction n with
  | zero => rfl
  | succ n ih => rw [List.range_succ, List.map_append, sumBytes_append, ← ih]; rfl

/-- Four bytes in four lanes, combined by OR, are the bytes side by side. -/
theorem or_lanes (a b c d : Byte) :
    a.setWidth 32 ||| (b.setWidth 32 <<< 8) ||| (c.setWidth 32 <<< 16) ||| (d.setWidth 32 <<< 24) =
      (d ++ c ++ b ++ a : BitVec 32) := by
  apply BitVec.eq_of_getLsbD_eq
  intro i hi
  have ha (h : 8 ≤ i) := BitVec.getLsbD_of_ge a i h
  have hb (h : 8 ≤ i - 8) := BitVec.getLsbD_of_ge b _ h
  have hc (h : 8 ≤ i - 16) := BitVec.getLsbD_of_ge c _ h
  simp only [BitVec.getLsbD_or, BitVec.getLsbD_setWidth, BitVec.getLsbD_shiftLeft, BitVec.getLsbD_append,
    show i - 8 - 8 = i - 16 by omega, show i - 16 - 8 = i - 24 by omega]
  rcases (show i < 8 ∨ (8 ≤ i ∧ i < 16) ∨ (16 ≤ i ∧ i < 24) ∨ 24 ≤ i by omega) with h | h | h | h
  · simp [h, hi, show i < 16 by omega, show i < 24 by omega]
  · simp [ha h.1, hi, h.2, show i < 24 by omega, show ¬ i < 8 by omega, show i - 8 < 8 by omega,
      show i - 8 < 32 by omega]
  · simp [ha (by omega), hb (by omega), hi, h.2, show ¬ i < 16 by omega, show ¬ i < 8 by omega,
      show ¬ i - 8 < 8 by omega, show i - 16 < 8 by omega, show i - 16 < 32 by omega]
  · simp [ha (by omega), hb (by omega), hc (by omega), hi, show ¬ i < 24 by omega, show ¬ i < 16 by omega,
      show ¬ i < 8 by omega, show ¬ i - 8 < 8 by omega, show ¬ i - 16 < 8 by omega, show i - 24 < 32 by omega]

/-- The raw identifier is staged bytes 4, 3, 2, 1 side by side. -/
theorem rawIdentifier_eq_append (st : Staged) :
    rawIdentifier st = stagedRead st 4 ++ stagedRead st 3 ++ stagedRead st 2 ++ stagedRead st 1 :=
  or_lanes _ _ _ _

/-- The DLC as a number. -/
theorem dataLengthCode_toNat (st : Staged) : (dataLengthCode st).toNat = (stagedRead st 5).toNat % 16 := by
  simp [dataLengthCode]

end Sys2Proof.Machine
end

