-- ==== Sys2Proof/Laws/Frame.lean ====
section
/-! SUPPORT. What the stages of DECODE do, once for each: the hex-pair loop against the bytes a string spells, and what
is left of the stages once the loop has passed. -/

namespace Sys2Proof.Machine

open Sys2Proof.Safety

/-! ## The bytes a string spells -/

@[simp] theorem pairBytes_nil : pairBytes [] = some [] := rfl

@[simp] theorem pairBytes_single (c : Byte) : pairBytes [c] = some [] := rfl

theorem pairBytes_pair_eq_some {ch cl : Byte} {rest bs : List Byte} :
    pairBytes (ch :: cl :: rest) = some bs ↔
      ∃ v vs, hexpair ch cl = some v ∧ pairBytes rest = some vs ∧ bs = v :: vs := by
  simp only [pairBytes]
  split
  · next v vs hv hvs => simp [hv, hvs, eq_comm]
  · next h =>
    constructor
    · simp
    · rintro ⟨v, vs, hv, hvs, -⟩
      exact absurd hvs (h v vs hv)

/-- One byte for each pair of characters. -/
theorem pairBytes_length : ∀ {cs bs : List Byte}, pairBytes cs = some bs → bs.length = cs.length / 2
  | [], _, h => by simp_all
  | [_], _, h => by simp_all
  | _ :: _ :: rest, _, h => by
    obtain ⟨v, vs, -, hvs, rfl⟩ := pairBytes_pair_eq_some.mp h
    have := pairBytes_length hvs
    simp only [List.length_cons]
    omega

/-- The decoded count of a string (R122, R124). -/
theorem spelledBytes_length {inp bs : List Byte} (h : spelledBytes inp = some bs) :
    bs.length = (inp.length - 1) / 2 := by
  simpa using pairBytes_length h

/-! ## The hex-pair loop -/

/-- A string that spells bytes passes the loop, which writes them from the pair index on and nothing else. -/
theorem hexLoop_of_pairBytes : ∀ {cs bs : List Byte} (i : Nat) (st : Staged), pairBytes cs = some bs →
    i + bs.length ≤ 16 →
    (hexLoop cs i st).2 = none ∧
    ∀ k, k < 16 → stagedRead (hexLoop cs i st).1 k =
      if i ≤ k then (bs[k - i]?).getD (stagedRead st k) else stagedRead st k
  | [], _, i, st, h, _ => by simp_all [hexLoop]
  | [_], _, i, st, h, _ => by simp_all [hexLoop]
  | ch :: cl :: rest, bs, i, st, h, hlen => by
    obtain ⟨v, vs, hv, hvs, rfl⟩ := pairBytes_pair_eq_some.mp h
    simp only [List.length_cons] at hlen
    obtain ⟨h1, h2⟩ := hexLoop_of_pairBytes (i + 1) (stagedWrite st i v) hvs (by omega)
    simp only [hexLoop, hv]
    refine ⟨h1, fun k hk => ?_⟩
    rw [h2 k hk]
    rcases Nat.lt_trichotomy k i with hki | rfl | hki
    · rw [if_neg (by omega), if_neg (by omega), stagedRead_stagedWrite_ne hk (by omega) (by omega)]
    · simp
    · rw [if_pos (by omega), if_pos (by omega), stagedRead_stagedWrite_ne hk (by omega) (by omega)]
      obtain ⟨m, rfl⟩ : ∃ m, k = i + 1 + m := ⟨k - (i + 1), by omega⟩
      rw [show i + 1 + m - (i + 1) = m by omega, show i + 1 + m - i = m + 1 by omega, List.getElem?_cons_succ]

/-- A string with a pair that is no byte fails in the loop. -/
theorem hexLoop_of_pairBytes_none : ∀ {cs : List Byte} (i : Nat) (st : Staged), pairBytes cs = none →
    (hexLoop cs i st).2 = some .invalidHex
  | [], _, _, h => by simp at h
  | [_], _, _, h => by simp at h
  | ch :: cl :: rest, i, st, h => by
    simp only [hexLoop]
    cases hv : hexpair ch cl with
    | none => rfl
    | some v =>
      cases hvs : pairBytes rest with
      | none => exact hexLoop_of_pairBytes_none (i + 1) _ hvs
      | some vs => simp [pairBytes, hv, hvs] at h

/-! ## The stages -/

/-- The length gate passes exactly the lengths 15..31 (R121). -/
theorem lengthGate_eq_none {l : Nat} : lengthGate l = none ↔ 15 ≤ l ∧ l ≤ 31 := by
  simp only [lengthGate, Config.maxLen, Config.minLen]
  split
  · simp; omega
  · split
    · simp; omega
    · simp; omega

@[simp] theorem identifierStage_fst (cfg : Params) (w : Working) : (identifierStage cfg w).1 = w := rfl

@[simp] theorem dlcStage_fst (w : Working) : (dlcStage w).1 = w := rfl

@[simp] theorem compareStage_fst (w : Working) : (compareStage w).1 = w := rfl

/-- The identifier check passes where it is not illegal (R130). -/
theorem identifierStage_snd {cfg : Params} {w : Working} :
    (identifierStage cfg w).2 = none ↔ idIllegal cfg w.rawid = false := by
  cases h : idIllegal cfg w.rawid <;> simp [identifierStage, h]

/-- The DLC check passes where it is not illegal (R131). -/
theorem dlcStage_snd {w : Working} : (dlcStage w).2 = none ↔ dlcIllegal w.dlc = false := by
  cases h : dlcIllegal w.dlc <;> simp [dlcStage, h]

/-- The working registers after the hex-pair loop and the field extractor. -/
def afterExtract (inp : List Byte) (w : Working) : Working := (extractStage (hexStage inp w).1).1

/-- What is left of DECODE once a string has passed the length gate and the hex-pair loop (R120). -/
theorem decodeStages_of_spelled {inp bs : List Byte} (cfg : Params) (w : Working) (hl : LengthOk inp)
    (hs : spelledBytes inp = some bs) :
    decodeStages cfg inp w =
      stageThen (identifierStage cfg (afterExtract inp w)) fun w =>
      stageThen (dlcStage w) fun w => stageThen (checksumStage cfg w) compareStage := by
  have hlen := spelledBytes_length hs
  obtain ⟨h2, -⟩ := hexLoop_of_pairBytes 0 w.staged hs (by have := hl.2; omega)
  have hx : hexStage inp w = ((hexStage inp w).1, none) := by
    rw [hexStage]
    split
    · rfl
    · next heq => rw [heq] at h2; cases h2
  simp only [decodeStages, lengthStage, lengthGate_eq_none.mpr hl, stageThen_none]
  rw [hx]
  rfl

/-- What the working registers hold there (R124, R126 to R128). -/
theorem afterExtract_spec {inp bs : List Byte} (w : Working) (hl : LengthOk inp) (hs : spelledBytes inp = some bs) :
    (∀ k, k < 16 → stagedRead (afterExtract inp w).staged k = stagedByte bs w.staged k) ∧
    (afterExtract inp w).n = BitVec.ofNat 4 (pairCount inp.length) ∧
    (afterExtract inp w).seq = sequenceNumber (afterExtract inp w).staged ∧
    (afterExtract inp w).rawid = rawIdentifier (afterExtract inp w).staged ∧
    (afterExtract inp w).dlc = dataLengthCode (afterExtract inp w).staged := by
  have hlen := spelledBytes_length hs
  obtain ⟨h2, h3⟩ := hexLoop_of_pairBytes 0 w.staged hs (by have := hl.2; omega)
  have hx : (hexStage inp w).1 =
      { w with staged := (hexLoop inp.dropLast 0 w.staged).1, n := BitVec.ofNat 4 (pairCount inp.length) } := by
    rw [hexStage]
    split
    · next heq => rw [heq]
    · next heq => rw [heq] at h2; cases h2
  simp only [afterExtract, extractStage, hx, and_self, and_true]
  intro k hk
  simpa [stagedByte] using h3 k hk

/-- What the working registers of a DECODE hold once `bs` has been decoded and the fields extracted, told on `bs` and
on what the registers `w` held at the start (R124, R126 to R128). -/
structure Extracted (inp bs : List Byte) (w e : Working) : Prop where
  /-- The staged buffer. -/
  staged : ∀ k, k < 16 → stagedRead e.staged k = stagedByte bs w.staged k
  /-- The decoded count. -/
  n : e.n.toNat = (inp.length - 1) / 2
  /-- The sequence number. -/
  seq : e.seq = stagedByte bs w.staged 0
  /-- The raw identifier. -/
  rawid : e.rawid = frameRawId bs w.staged
  /-- The DLC. -/
  dlc : e.dlc.toNat = frameDlc bs w.staged

theorem afterExtract_extracted {inp bs : List Byte} (w : Working) (hl : LengthOk inp)
    (hs : spelledBytes inp = some bs) : Extracted inp bs w (afterExtract inp w) := by
  obtain ⟨h1, h2, h3, h4, h5⟩ := afterExtract_spec w hl hs
  refine ⟨h1, ?_, ?_, ?_, ?_⟩
  · rw [h2, pairCount, BitVec.toNat_ofNat, Nat.shiftRight_eq_div_pow]
    have := hl.2
    omega
  · rw [h3, sequenceNumber, h1 _ (by omega)]
  · rw [h4, rawIdentifier_eq_append, h1 _ (by omega), h1 _ (by omega), h1 _ (by omega), h1 _ (by omega)]
    rfl
  · rw [h5, dataLengthCode_toNat, h1 _ (by omega)]
    rfl

/-- The folded sum of extracted registers is the frame's checksum. -/
theorem Extracted.checksum {inp bs : List Byte} {w e : Working} (h : Extracted inp bs w e) (cfg : Params)
    (hd : frameDlc bs w.staged ≤ 8) :
    fold (sumStaged cfg.checksumSeed e.staged (checksumOffset e.dlc)) = frameChecksum cfg bs w.staged := by
  rw [frameChecksum, sumStaged_eq_sumBytes, checksumOffset, h.dlc]
  congr 2
  apply List.map_congr_left
  intro k hk
  rw [List.mem_range] at hk
  exact h.staged k (by omega)

/-- The byte the checksum is compared with is the one the frame carries. -/
theorem Extracted.stored {inp bs : List Byte} {w e : Working} (h : Extracted inp bs w e)
    (hd : frameDlc bs w.staged ≤ 8) :
    stagedRead e.staged (checksumOffset e.dlc) = storedChecksum bs w.staged := by
  rw [checksumOffset, h.dlc, h.staged _ (by omega)]
  rfl

theorem idIllegal_iff (cfg : Params) (rawid : Word32) : idIllegal cfg rawid = true ↔ ¬ IdLegal cfg rawid := by
  simp [idIllegal, ideFlag]

theorem dlcIllegal_iff (dlc : Nibble) : dlcIllegal dlc = true ↔ dlc.toNat > 8 := by
  rw [dlcIllegal, decide_eq_true_iff]

/-- Everything the stages of DECODE do with a string of legal length that spells bytes (R120). -/
theorem decodeStages_spec {inp bs : List Byte} (cfg : Params) (w : Working) (hl : LengthOk inp)
    (hs : spelledBytes inp = some bs) :
    ∃ e, Extracted inp bs w e ∧ decodeStages cfg inp w =
      if ¬ IdLegal cfg (frameRawId bs w.staged) then (e, some .illegalCanId)
      else if frameDlc bs w.staged > 8 then (e, some .illegalDlc)
      else ((checksumStage cfg e).1,
        if frameChecksum cfg bs w.staged ≠ storedChecksum bs w.staged then some .checksumError else none) := by
  have he := afterExtract_extracted w hl hs
  refine ⟨_, he, ?_⟩
  rw [decodeStages_of_spelled cfg w hl hs, identifierStage]
  by_cases hi : IdLegal cfg (frameRawId bs w.staged)
  · have hi' : ¬ idIllegal cfg (afterExtract inp w).rawid = true := by
      rw [idIllegal_iff, he.rawid]
      exact not_not.mpr hi
    rw [if_neg hi', stageThen_none, if_neg (not_not.mpr hi), dlcStage]
    by_cases hd : frameDlc bs w.staged > 8
    · have hd' : dlcIllegal (afterExtract inp w).dlc = true := by rw [dlcIllegal_iff, he.dlc]; exact hd
      rw [if_pos hd', if_pos hd, stageThen_some]
    · have hd' : ¬ dlcIllegal (afterExtract inp w).dlc = true := by rw [dlcIllegal_iff, he.dlc]; exact hd
      rw [if_neg hd', if_neg hd, stageThen_none]
      simp only [checksumStage, stageThen_none, compareStage]
      rw [he.checksum cfg (by omega), he.stored (by omega)]
  · have hi' : idIllegal cfg (afterExtract inp w).rawid = true := by
      rw [idIllegal_iff, he.rawid]
      exact hi
    rw [if_pos hi', if_pos hi, stageThen_some]

/-- A string of legal length with a pair that is no byte (R123). -/
theorem decodeStages_invalidHex {inp : List Byte} (cfg : Params) (w : Working) (hl : LengthOk inp)
    (hs : spelledBytes inp = none) : ∃ w', decodeStages cfg inp w = (w', some .invalidHex) := by
  have hx : ∃ w', hexStage inp w = (w', some .invalidHex) := by
    have h := hexLoop_of_pairBytes_none 0 w.staged hs
    rw [hexStage]
    split
    · next heq => rw [heq] at h; cases h
    · next heq => rw [heq] at h; cases h; exact ⟨_, rfl⟩
  obtain ⟨w', hw⟩ := hx
  exact ⟨w', by simp only [decodeStages, lengthStage, lengthGate_eq_none.mpr hl, stageThen_none, hw, stageThen_some]⟩

/-- A string whose length the gate turns away (R121). -/
theorem decodeStages_gate {inp : List Byte} {c : FailCode} (cfg : Params) (w : Working)
    (h : lengthGate inp.length = some c) : decodeStages cfg inp w = (w, some c) := by
  simp only [decodeStages, lengthStage, h, stageThen_some]

/-- A result without a failure is its registers and no code. -/
theorem stageResult_eta {r : StageResult} (h : r.2 = none) : r = (r.1, none) := by
  obtain ⟨w, _ | c⟩ := r
  · rfl
  · cases h

/-- A DECODE that ends without a failure has passed the identifier check and the DLC check (R130, R131). -/
theorem decodeStages_ok {cfg : Params} {inp : List Byte} {w w' : Working} (h : decodeStages cfg inp w = (w', none)) :
    idIllegal cfg w'.rawid = false ∧ dlcIllegal w'.dlc = false := by
  have h2 : (decodeStages cfg inp w).2 = none := by rw [h]
  simp only [decodeStages, stageThen_snd_eq_none] at h2
  obtain ⟨hl, hx, he, hi, hd, hck, hcmp⟩ := h2
  rw [decodeStages, stageResult_eta hl, stageThen_none, stageResult_eta hx, stageThen_none, stageResult_eta he,
    stageThen_none, stageResult_eta hi, stageThen_none, stageResult_eta hd, stageThen_none, stageResult_eta hck,
    stageThen_none, stageResult_eta hcmp] at h
  obtain ⟨rfl, -⟩ := Prod.mk.inj h
  exact ⟨identifierStage_snd.mp hi, dlcStage_snd.mp hd⟩

/-! ## DECODE -/

/-- DECODE always completes. -/
theorem execDecode_eq (inp : List Byte) (s : State) :
    execDecode inp s =
      .next (finishDecode (decodeStages s.cfg inp (Working.drawn s.draws)) (startDecode s)) := rfl

@[simp] theorem finishDecode_none (w : Working) (s : State) : finishDecode (w, none) s = commitDecode w s := rfl

@[simp] theorem finishDecode_some (w : Working) (c : FailCode) (s : State) :
    finishDecode (w, some c) s = failDecode c w s := rfl

/-- What a DECODE can do to the state: it fails with a code, or it commits. -/
theorem execDecode_cases {inp : List Byte} {s t : State} (h : execDecode inp s = .next t) :
    (∃ w c, decodeStages s.cfg inp (Working.drawn s.draws) = (w, some c) ∧ t = failDecode c w (startDecode s)) ∨
    (∃ w, decodeStages s.cfg inp (Working.drawn s.draws) = (w, none) ∧ t = commitDecode w (startDecode s)) := by
  rw [execDecode_eq] at h
  obtain rfl := Host.Outcome.next.inj h
  rcases hr : decodeStages s.cfg inp (Working.drawn s.draws) with ⟨w, _ | c⟩
  · exact .inr ⟨w, rfl, rfl⟩
  · exact .inl ⟨w, c, rfl, rfl⟩

end Sys2Proof.Machine
end

