-- ==== Sys2Proof/Laws/PerInstr.lean ====
section
/-! SUPPORT. Statements about every request as syntax, one lemma per constructor (LAWS.json, family EncodeShape). -/

namespace Sys2Proof.Laws.EncodeShape

/-- A request's encoding begins with its command byte, whose reserved field is 0 (R70, R71), and decoding it never
answers that the command is reserved. -/
def Statement (i : Instr) : Prop :=
  (encode i).head? = some (commandByte i) ∧ commandRsv (commandByte i) = 0#4 ∧
    ∀ c rest, decode (encode i ++ rest) ≠ .error (.reservedCommand c)

/-- DECODE. -/
theorem decode (inp : List Byte) : Statement (.decode inp) := by
  refine ⟨rfl, ((command_fields _).1.mpr rfl).1, fun c rest h => ?_⟩
  rw [encode, List.cons_append, decode_decodeCommand, decodeString] at h
  split at h <;> cases h

/-- LOOKUP. -/
theorem lookup (b : Byte) : Statement (.lookup b) :=
  ⟨rfl, ((command_fields _).2.mpr rfl).1, fun c rest h => by cases h⟩

end Sys2Proof.Laws.EncodeShape
end

