-- ==== Sys2Proof/Laws/Step.lean ====
section
/-! SUPPORT. What a step can do, said once, and the small lemmas of the host's side. -/

namespace Sys2Proof.Machine

open Sys2Proof.Safety

@[simp] theorem leadingBytes_sendBytes (bs : List Byte) (t : List HostAction) :
    leadingBytes (sendBytes bs ++ t) = bs ++ leadingBytes t := by
  induction bs with
  | nil => rfl
  | cons b bs ih => simpa [sendBytes, leadingBytes] using ih

@[simp] theorem afterBytes_sendBytes (bs : List Byte) (t : List HostAction) :
    afterBytes (sendBytes bs ++ t) = afterBytes t := by
  induction bs with
  | nil => rfl
  | cons b bs ih => simpa [sendBytes, afterBytes] using ih

/-- The host's actions are the bytes it sends first and what follows them. -/
theorem sendBytes_leadingBytes : ∀ t : List HostAction, sendBytes (leadingBytes t) ++ afterBytes t = t
  | [] => rfl
  | .byte b :: t => by simpa [sendBytes, leadingBytes, afterBytes] using sendBytes_leadingBytes t
  | .read _ :: _ => rfl
  | .reset :: _ => rfl

/-- The value a host read gets is there or is not; nothing else can come of a read. -/
theorem hostRead_eq_next {r : HostReg} {rest : List HostAction} {s t : State} (h : hostRead r rest s = .next t) :
    t = { s with host := rest } := by
  simp only [hostRead] at h
  split at h
  · exact (Host.Outcome.next.inj h).symm
  · cases h

/-- What follows the bytes the host sends next is no byte. -/
theorem afterBytes_ne_byte : ∀ (h : List HostAction) (b : Byte) (rest : List HostAction), afterBytes h ≠ .byte b :: rest
  | .byte _ :: t, b, rest => afterBytes_ne_byte t b rest
  | [], _, _ => nofun
  | .read _ :: _, _, _ => nofun
  | .reset :: _, _, _ => nofun

/-- An incomplete request waits where the host does nothing more, or is gone to a reset. -/
theorem rejectRequest_eq_next {e : DecodeError} {s t : State} (h : rejectRequest e s = .next t) :
    (afterBytes s.host = [] ∧ t = s) ∨ ∃ rest, afterBytes s.host = .reset :: rest ∧ t = resetEvent rest s := by
  have key : ∀ {t}, incompleteRequest s = .next t →
      (afterBytes s.host = [] ∧ t = s) ∨ ∃ rest, afterBytes s.host = .reset :: rest ∧ t = resetEvent rest s := by
    intro t ht
    simp only [incompleteRequest] at ht
    cases ha : afterBytes s.host with
    | nil => rw [ha] at ht; exact .inl ⟨rfl, (Host.Outcome.next.inj ht).symm⟩
    | cons a rest =>
      rw [ha] at ht
      cases a with
      | byte b => exact absurd ha (afterBytes_ne_byte _ _ _)
      | read r => cases ht
      | reset => exact .inr ⟨rest, rfl, (Host.Outcome.next.inj ht).symm⟩
  cases e with
  | reservedCommand c => cases h
  | noBytes => exact key h
  | unterminatedString => exact key h
  | missingOperand => exact key h

/-- Everything a step that goes on can have done: nothing, for want of a whole request and of anything after its bytes;
a host read; a reset; or one request. -/
theorem step_cases {s t : State} (h : step s = .next t) :
    ((∀ i r, decode (leadingBytes s.host) ≠ .ok (i, r)) ∧ afterBytes s.host = [] ∧ t = s) ∨
    (∃ r rest, s.host = .read r :: rest ∧ t = { s with host := rest }) ∨
    (∃ rest, ResetIsNext s rest ∧ t = resetEvent rest s) ∨
    (∃ i rest, decode (leadingBytes s.host) = .ok (i, rest) ∧ exec i (acceptRequest i rest s) = .next t) := by
  simp only [step] at h
  split at h
  · next heq => exact .inl ⟨by rw [heq]; exact nofun, by rw [heq]; rfl, (Host.Outcome.next.inj h).symm⟩
  · next r rest heq => exact .inr (.inl ⟨r, rest, heq, hostRead_eq_next h⟩)
  · next rest heq =>
    exact .inr (.inr (.inl ⟨rest, by rw [ResetIsNext, heq]; exact ⟨nofun, rfl⟩, (Host.Outcome.next.inj h).symm⟩))
  · split at h
    · next i rest hd => exact .inr (.inr (.inr ⟨i, rest, hd, h⟩))
    · next e he =>
      have none_ok : ∀ i r, decode (leadingBytes s.host) ≠ .ok (i, r) := by rw [he]; exact nofun
      rcases rejectRequest_eq_next h with ⟨ha, rfl⟩ | ⟨rest, ha, rfl⟩
      · exact .inl ⟨none_ok, ha, rfl⟩
      · exact .inr (.inr (.inl ⟨rest, ⟨none_ok, ha⟩, rfl⟩))

end Sys2Proof.Machine
end

