-- ==== Sys2Proof/Tests/Slice0.lean ====
section
/-! SUPPORT. Small tests of the model: well-formedness, words written out from the spec's encodings, at most two steps
per request with expected values from 95_test_vectors.md, and witnesses for the hypotheses of the statements. -/

namespace Sys2Proof.Tests

open Sys2Proof.Machine Sys2Proof.Safety

/-! ## Helpers -/

/-- The test configuration of 95_test_vectors.md: the defaults and the test seed 0x0000A5A5. -/
def testParams : Params := { Config.params with checksumSeed := 0x0000A5A5#32 }

/-- The idle block under the test configuration. -/
def testState : State := State.idle testParams 0

/-- The `n` bytes of a number, the highest first. -/
def bytes (n w : Nat) : List Byte := (List.range n).map (fun k => BitVec.ofNat 8 (w >>> (8 * (n - 1 - k))))

/-- Program P1's string "05000060240211220A" and a newline (vector V-D1). -/
def textD1 : List Byte := bytes 19 0x3035303030303630323430323131323230410A

/-- Vector V-D2's string, of the greatest length. -/
def textD2 : List Byte := bytes 31 0x3745383446374536443530383031303230333034303530363037303832460A

/-- The state a meaning answers, where it goes on. -/
def after (o : Host.Outcome State Fault Refusal) : Option State :=
  match o with
  | .next t => some t
  | _ => none

/-- The host reads a register of the state a meaning answers. -/
def readAfter (o : Host.Outcome State Fault Refusal) (r : HostReg) : Option (BitVec 64) := (after o).bind (readReg r)

/-! ## Well-formedness -/

theorem test_wf_decode : (Instr.decode textD1).Wf := by decide

theorem test_wf_decode_empty : (Instr.decode []).Wf := by decide

/-- R50, R72: 0x00 would end the string. -/
theorem test_ill_formed_decode : ¬ (Instr.decode [0x30#8, 0x00#8, 0x31#8]).Wf := by decide

theorem test_wf_lookup_zero : (Instr.lookup 0x00#8).Wf := by decide

/-! ## Encodings -/

/-- R102's example: bytes 02 66. -/
theorem test_decode_lookup : decode [0b00000010#8, 0b01100110#8] = .ok (.lookup 0x66#8, []) := rfl

/-- R87's example; the byte after the end byte is left. -/
theorem test_decode_decode : decode (0b00000001#8 :: bytes 16 0x30303030303030303030303034420A00 ++ [0x02#8]) =
    .ok (.decode (bytes 15 0x30303030303030303030303034420A), [0x02#8]) := rfl

/-- R70: a command byte whose reserved field is not 0 is reserved, whatever its operation field says. -/
theorem test_decode_reserved_field : decode [0b00010001#8, 0x00#8] = .error (.reservedCommand 0x11#8) := rfl

/-- R83: command byte 0x00. -/
theorem test_decode_reserved_zero : decode [0x00#8] = .error (.reservedCommand 0x00#8) := rfl

theorem test_decode_unterminated : decode [0x01#8, 0x30#8] = .error .unterminatedString := rfl

theorem test_decode_missing_operand : decode [0x02#8] = .error .missingOperand := rfl

theorem test_tableWord_decode : decodeTableWord 8 0x01 = some (.decode []) := rfl

theorem test_tableWord_lookup : decodeTableWord 8 0x02 = some (.lookup 0x00#8) := rfl

/-- The second byte of a table word is its bits 15..8. -/
theorem test_tableWord_operand : decodeTableWord 16 0x6602 = some (.lookup 0x66#8) := rfl

/-- A table word placed by withFetchWord is what the first step after reset runs: an empty DECODE is TooShort (R121). -/
theorem test_fetchWord_decode : (after (step (State.reset.withFetchWord 8 0x01))).bind State.status = some 2#3 := by
  decide

theorem test_fetchWord_lookup : readAfter (step (State.reset.withFetchWord 8 0x02)) .lk = some 0x10#64 := by decide

/-- R87: the line LOOKUP 'a' is 02 61. -/
theorem test_readLine_lookup :
    (parseLine (bytes 10 0x4C4F4F4B555020276127)).map (assemble testParams) = some [0x02#8, 0x61#8] := by decide

/-- Program P4: DECODE.F 0x10, 0xC7F78804, 0x04 and payload DE AD BE EF has the checksum E6. -/
theorem test_decodeF : frameText testParams 0x10#8 0xC7F78804#32 0x04#8 [0xDE#8, 0xAD#8, 0xBE#8, 0xEF#8] =
    bytes 23 0x313030343838463743373034444541444245454645360A := by decide

/-! ## Tables of the spec -/

/-- R100's table, row by row. -/
def lutTable : List Nat :=
  List.replicate 48 16 ++ [0, 1, 2, 3, 4, 5, 6, 7, 8, 9, 16, 16, 16, 16, 16, 16] ++
  [16, 10, 11, 12, 13, 14, 15] ++ List.replicate 25 16 ++ [16, 10, 11, 12, 13, 14, 15] ++ List.replicate 153 16

theorem test_lut_table : ∀ b : Byte, lutTable[b.toNat]? = some (lut b).toNat := by decide

/-- The fold values of 95_test_vectors.md section 2.3. -/
theorem test_fold_table :
    [0x00000000#32, 0x000000FF#32, 0x00000100#32, 0x0000A5A5#32, 0x0000FF00#32, 0x0000FFFF#32, 0x00010000#32,
      0x0001FFFF#32, 0x12345678#32, 0xFFFFFFFF#32].map fold =
    [0x00#8, 0xFF#8, 0x01#8, 0x4B#8, 0xFF#8, 0xFF#8, 0x01#8, 0x01#8, 0x15#8, 0xFF#8] := by decide

/-! ## LOOKUP -/

/-- R102's example: LK is 0x0F after LOOKUP 'f'. -/
theorem test_lookup_f : readAfter (exec (.lookup 0x66#8) testState) .lk = some 0x0F#64 := by decide

/-- R105: the newline is no hex digit. -/
theorem test_lookup_newline : readAfter (exec (.lookup 0x0A#8) testState) .lk = some 0x10#64 := by decide

/-! ## DECODE -/

/-- Vector V-D2: STATUS, SF_CANID and DF_DATA64. -/
theorem test_decode_extended :
    [HostReg.status, .sfCanid, .dfData64].map (readAfter (exec (.decode textD2) testState)) =
      [some 0#64, some 0x9ABCDEF0#64, some 0x0807060504030201#64] := by decide

/-- Vector V-P2: a bad identifier beats a bad DLC and a bad checksum, and no frame register holds a value. -/
theorem test_decode_priority :
    [HostReg.status, .sfCanid].map (readAfter (exec (.decode
      (bytes 31 0x3030303830303030303030393030303030303030303030303030303035430A)) testState)) = [some 4#64, none] := by
  decide

/-! ## Witnesses

For each statement with hypotheses, one concrete state and operands that meet all of them (one for each clause where a
statement has several). -/

/-- Vector V-D5's string, of the least length. -/
def textD5 : List Byte := bytes 15 0x30303030303030303030303034420A

/-- A staged buffer of zeros. -/
def zeroStaged : Staged := #v[0, 0, 0, 0, 0, 0, 0, 0, 0, 0, 0, 0, 0, 0, 0, 0]

/-- Working registers of zeros. -/
def zeroWorking : Working := { staged := zeroStaged, n := 0, acc := 0, ckcalc := 0, seq := 0, rawid := 0, dlc := 0 }

/-- A payload of zeros. -/
def zeroPayload : Payload := #v[0, 0, 0, 0, 0, 0, 0, 0]

/-- The block after a successful DECODE of a frame of zeros and a LOOKUP of '0'. -/
def decodedState : State :=
  { testState with
    status := some 0#3
    lk := some 0x00#5
    df := some { seq := 0, id := 0, dlc := 0, data := zeroPayload }
    sf := some { canid := 0, dlc := 0, data := zeroPayload } }

/-- The test state with a host that will do `h`. -/
def hostDoes (h : List HostAction) : State := { testState with host := h }

theorem witness_DecodeInvertsEncode : (Instr.decode textD1).Wf ∧ (Instr.lookup 0xFF#8).Wf := by decide

theorem witness_DecodedBytesAreTheEncoding :
    decode [0x01#8, 0x30#8, 0x00#8, 0x02#8] = .ok (.decode [0x30#8], [0x02#8]) := rfl

theorem witness_ReservedCommandsRejected :
    (0x00#8 ≠ 0x01#8 ∧ 0x00#8 ≠ 0x02#8) ∧ (0x03#8 ≠ 0x01#8 ∧ 0x03#8 ≠ 0x02#8) ∧ (0xFF#8 ≠ 0x01#8 ∧ 0xFF#8 ≠ 0x02#8) := by
  decide

theorem witness_ReservedCommandStopsTheRun :
    (hostDoes [.byte 0x07#8]).host = .byte 0x07#8 :: [] ∧ 0x07#8 ≠ 0x01#8 ∧ 0x07#8 ≠ 0x02#8 := by decide

theorem witness_ReadLinesAreWellFormed :
    parseLine (bytes 10 0x4C4F4F4B555020276127) = some [.lookup 0x61#8] ∧ SourceLine.lookup 0x61#8 ∈ [.lookup 0x61#8] := by
  decide

theorem witness_HexpairCombines :
    (lutErr (lut 0x47#8) = true ∨ lutErr (lut 0x30#8) = true) ∧
    (lutErr (lut 0x34#8) = false ∧ lutErr (lut 0x42#8) = false) := by decide

/-- Vector V-E3: L = 32. -/
theorem witness_TooLongFails : (bytes 32 0x303030303030303030303030303030303030303030303030303030303030300A).length > 31 := by decide

/-- Vector V-E1: L = 14. -/
theorem witness_TooShortFails : (bytes 14 0x303030303030303030303030300A).length < 15 := by decide

/-- Vectors V-E6 (the first pair) and V-E7 (the checksum's pair, the last). -/
theorem witness_InvalidHexFails :
    (LengthOk (bytes 19 0x2135303030303630323430323131323230410A) ∧ 0 < ((bytes 19 0x2135303030303630323430323131323230410A).length - 1) / 2 ∧
      (bytes 19 0x2135303030303630323430323131323230410A)[2 * 0]? = some 0x21#8 ∧ (bytes 19 0x2135303030303630323430323131323230410A)[2 * 0 + 1]? = some 0x35#8 ∧
      (lutErr (lut 0x21#8) = true ∨ lutErr (lut 0x35#8) = true)) ∧
    (LengthOk (bytes 19 0x3035303030303630323430323131323267410A) ∧ 8 < ((bytes 19 0x3035303030303630323430323131323267410A).length - 1) / 2 ∧
      (bytes 19 0x3035303030303630323430323131323267410A)[2 * 8]? = some 0x67#8 ∧ (bytes 19 0x3035303030303630323430323131323267410A)[2 * 8 + 1]? = some 0x41#8 ∧
      (lutErr (lut 0x67#8) = true ∨ lutErr (lut 0x41#8) = true)) := by decide

/-- Vector V-E9: bit 16 set, IDE clear. -/
theorem witness_IllegalCanIdFails :
    LengthOk (bytes 15 0x30323030303030313030303034450A) ∧ spelledBytes (bytes 15 0x30323030303030313030303034450A) = some (bytes 7 0x0200000100004E) ∧
    (frameRawId (bytes 7 0x0200000100004E) (drawnBytes testState)).getLsbD 2 = false ∧
    frameRawId (bytes 7 0x0200000100004E) (drawnBytes testState) &&& testState.cfg.idCheckMask ≠ 0#32 := by decide

/-- Vector V-E10: DLC 9. -/
theorem witness_IllegalDlcFails :
    LengthOk (bytes 31 0x3033303030303630323430393030303030303030303030303030303044420A) ∧
    spelledBytes (bytes 31 0x3033303030303630323430393030303030303030303030303030303044420A) = some (bytes 15 0x0300006024090000000000000000DB) ∧
    IdLegal testState.cfg (frameRawId (bytes 15 0x0300006024090000000000000000DB) (drawnBytes testState)) ∧
    frameDlc (bytes 15 0x0300006024090000000000000000DB) (drawnBytes testState) > 8 := by decide

/-- Vector V-E12. -/
theorem witness_ChecksumErrorFails :
    LengthOk (bytes 19 0x3035303030303630323430323131323230300A) ∧ spelledBytes (bytes 19 0x3035303030303630323430323131323230300A) = some (bytes 9 0x050000602402112200) ∧
    IdLegal testState.cfg (frameRawId (bytes 9 0x050000602402112200) (drawnBytes testState)) ∧
    frameDlc (bytes 9 0x050000602402112200) (drawnBytes testState) ≤ 8 ∧
    frameChecksum testState.cfg (bytes 9 0x050000602402112200) (drawnBytes testState) ≠
      storedChecksum (bytes 9 0x050000602402112200) (drawnBytes testState) := by decide

/-- The clause on an outcome that is not OK: the empty string (vector V-E2). -/
theorem witness_FailureEmptiesFrames :
    (after (exec (.decode []) decodedState)).bind State.status ≠ some 0#3 := by decide

/-- Vectors V-D5 (L = 15, DLC 0, standard) and V-D2 (L = 31, DLC 8, extended). -/
theorem witness_ValidFrameDecodes :
    (LengthOk textD5 ∧ spelledBytes textD5 = some (bytes 7 0x4B) ∧
      IdLegal testState.cfg (frameRawId (bytes 7 0x4B) (drawnBytes testState)) ∧
      frameDlc (bytes 7 0x4B) (drawnBytes testState) ≤ 8 ∧
      frameChecksum testState.cfg (bytes 7 0x4B) (drawnBytes testState) =
        storedChecksum (bytes 7 0x4B) (drawnBytes testState)) ∧
    (LengthOk textD2 ∧ spelledBytes textD2 = some (bytes 15 0x7E84F7E6D50801020304050607082F) ∧
      IdLegal testState.cfg (frameRawId (bytes 15 0x7E84F7E6D50801020304050607082F) (drawnBytes testState)) ∧
      frameDlc (bytes 15 0x7E84F7E6D50801020304050607082F) (drawnBytes testState) ≤ 8 ∧
      frameChecksum testState.cfg (bytes 15 0x7E84F7E6D50801020304050607082F) (drawnBytes testState) =
        storedChecksum (bytes 15 0x7E84F7E6D50801020304050607082F) (drawnBytes testState)) := by decide

/-- Program P4's operands, and the greatest DLC under a high nibble that is not 0. -/
theorem witness_DecodeFRoundTrip :
    (IdLegal testState.cfg 0xC7F78804#32 ∧ (0x04#8).toNat % 16 ≤ 8 ∧
      [0xDE#8, 0xAD#8, 0xBE#8, 0xEF#8].length = (0x04#8).toNat % 16) ∧
    (IdLegal testState.cfg 0x24600000#32 ∧ (0xF8#8).toNat % 16 ≤ 8 ∧
      [1#8, 2#8, 3#8, 4#8, 5#8, 6#8, 7#8, 8#8].length = (0xF8#8).toNat % 16) := by decide

theorem witness_StagedBufferAfterLoop :
    LengthOk textD1 ∧ spelledBytes textD1 = some (bytes 9 0x05000060240211220A) := by decide

theorem witness_HeaderFieldsAreNeverDrawn :
    LengthOk textD5 ∧ spelledBytes textD5 = some (bytes 7 0x4B) := by decide

/-- The first offset past the bytes of vector V-D1, and offset 15 of the greatest string. -/
theorem witness_DecodeTakesItsOwnDraws :
    (9 < 16 ∧ (textD1.length - 1) / 2 ≤ 9) ∧ 15 < 16 ∧ (textD2.length - 1) / 2 ≤ 15 := by decide

/-- Vector V-X1: fourteen characters, the unpaired one, the terminator. -/
theorem witness_UnpairedCharacterIsIgnored : (bytes 14 0x3030303030303030303030303442).length % 2 = 0 := by decide

/-- Vector V-D5's frame, and vector V-X4's shape: pairs after the checksum. -/
theorem witness_ExtraPairsAreNotChecked :
    LengthOk textD5 ∧ LengthOk (bytes 19 0x3030303030303030303030303442444541440A) ∧ spelledBytes textD5 = some (bytes 7 0x4B ++ []) ∧
    spelledBytes (bytes 19 0x3030303030303030303030303442444541440A) = some (bytes 7 0x4B ++ [0xDE#8, 0xAD#8]) ∧
    (bytes 7 0x4B).length = 7 + frameDlc (bytes 7 0x4B) zeroWorking.staged := by decide

/-- Vector V-X6: DLC 3 and nine decoded bytes. -/
theorem witness_ShortFrameAdmitsBothOutcomes :
    LengthOk (bytes 19 0x3035303030303630323430333131323230410A) ∧ spelledBytes (bytes 19 0x3035303030303630323430333131323230410A) = some (bytes 9 0x05000060240311220A) ∧
    IdLegal testParams (frameRawId (bytes 9 0x05000060240311220A) zeroStaged) ∧
    frameDlc (bytes 9 0x05000060240311220A) zeroStaged ≤ 8 ∧
    (bytes 9 0x05000060240311220A).length < 7 + frameDlc (bytes 9 0x05000060240311220A) zeroStaged := by decide

/-- Buffers that differ at offset 15 alone, and a frame that decodes on them. -/
theorem witness_OffsetFifteenIsUnused :
    (∀ k, k < 15 → stagedRead zeroStaged k = stagedRead (stagedWrite zeroStaged 15 1#8) k) ∧
    (decodeStages testParams textD1 zeroWorking).2 = none := by decide

/-- Bits 3 and 16 are the ends of the default mask's range; the default mask is the test configuration's. -/
theorem witness_IdentifierCheckBits :
    testParams.idCheckMask = 0x0001FFFC#32 ∧
    ((0x00000008#32).getLsbD 2 = false ∧ (0x00000008#32).getLsbD 3 = true) ∧
    ((0x00010000#32).getLsbD 2 = false ∧ (0x00010000#32).getLsbD 16 = true) ∧
    idIllegal testParams 0x00000008#32 = true ∧ idIllegal testParams 0x00010000#32 = true ∧
    idIllegal testParams 0x00020000#32 = false := by decide

/-- Fourteen bytes and the greatest seed that cannot wrap. -/
theorem witness_AccumulatorIsModularSum : 14 ≤ 14 ∧ (0xFFFFF20D#32).toNat ≤ 0xFFFFFFFF - 0xDF2 := by decide

/-- R153's corner case 0x0001FFFF, where the second 16-bit step is needed. -/
theorem witness_FoldIsFourAdditions :
    0x10000 = (0x0001FFFF#32).toNat % 65536 + (0x0001FFFF#32).toNat / 65536 ∧ 1 = 0x10000 % 65536 + 0x10000 / 65536 ∧
    1 = 1 % 256 + 1 / 256 := by decide

/-- R157's example sums, and a sum that is 0. -/
theorem witness_UndetectedChanges :
    fold 0x0000A62A#32 = fold 0x0000A729#32 ∧ fold 0x00000000#32 ≠ fold 0x000000FF#32 := by decide

/-- The default flags, on the extended path and on the standard path. -/
theorem witness_ArbitrationIdLayout :
    testParams.Legal ∧ (0xFFFFFFFE#32).getLsbD 2 = true ∧ (0xFFE00002#32).getLsbD 2 = false ∧
    testParams.effFlag = 0x80000000#32 ∧ testParams.rtrFlag = 0x40000000#32 := by decide

/-- Two states with different draws: vector V-D1's frame is complete, a frame of seven bytes with DLC 8 is short, and
with a checked identifier bit set it is not one whose outcome R134 leaves open. -/
theorem witness_DecodeIsIdempotent :
    testState.cfg = (State.idle testParams 7).cfg ∧ ¬ ShortFrame testState.cfg textD1 (drawnBytes testState) ∧
    ShortFrame testState.cfg (bytes 15 0x30303030303030303030303830300A) (drawnBytes testState) ∧
    ¬ ShortFrame testState.cfg (bytes 15 0x30303030303030313030303830300A) (drawnBytes testState) := by
  refine ⟨rfl, ?_, ⟨by decide, bytes 7 0x0800, by decide⟩, ?_⟩
  · rintro ⟨-, bs, hs, h⟩
    obtain rfl := Option.some.inj (witness_StagedBufferAfterLoop.2.symm.trans hs)
    exact absurd h (by decide)
  · rintro ⟨-, bs, hs, h⟩
    have spelled : spelledBytes (bytes 15 0x30303030303030313030303830300A) = some (bytes 7 0x00000001000800) := by decide
    obtain rfl := Option.some.inj (spelled.symm.trans hs)
    exact absurd h (by decide)

/-- Each clause: the outcome is fixed and OK in both states, so the frame registers hold values in both. -/
theorem witness_DecodeIsIdempotent_frames :
    [HostReg.dfSeq, .sfDlc].map (readAfter (exec (.decode textD1) testState)) = [some 5#64, some 2#64] ∧
    [HostReg.dfSeq, .sfDlc].map (readAfter (exec (.decode textD1) (State.idle testParams 7))) = [some 5#64, some 2#64] :=
  by decide

theorem witness_EarlierRequestsDoNotMatter :
    testState.cfg = decodedState.cfg ∧ testState.draws = decodedState.draws ∧ testState.status ≠ decodedState.status := by
  decide

theorem witness_ResetSignalEmptiesRegisters : (hostDoes [.reset, .read .lk]).host = .reset :: [.read .lk] := rfl

theorem witness_ReadOfNoValueFaults :
    (hostDoes [.read .sfCanid]).host = .read .sfCanid :: [] ∧ readReg .sfCanid (hostDoes [.read .sfCanid]) = none := by
  decide

theorem witness_ReadHasNoSideEffect :
    ({ decodedState with host := [.read .lk] } : State).host = .read .lk :: [] ∧
    readReg .lk { decodedState with host := [.read .lk] } = some 0#64 := by decide

theorem witness_PayloadViewsAgree :
    decodedState.df = some { seq := 0, id := 0, dlc := 0, data := zeroPayload } := rfl

/-- The invariant holds of a block that has decoded a frame. -/
theorem witness_invariant_decoded : Inv decodedState where
  legal := by decide
  status := by decide
  df := by decide
  sf := by decide
  frames := by
    intro d f hd hf
    obtain rfl := Option.some.inj hd
    obtain rfl := Option.some.inj hf
    refine ⟨rfl, by decide, rfl, by decide, by decide⟩
  lk := by
    intro v hv
    obtain rfl := Option.some.inj hv
    exact ⟨0x30#8, by decide⟩

/-- Both sides of the equivalence: a state with STATUS 0. -/
theorem witness_FramesReadableExactlyAfterOk :
    Inv decodedState ∧ FrameRegister .sfDlc ∧ decodedState.status = some 0#3 :=
  ⟨witness_invariant_decoded, by decide, rfl⟩

/-- An idle block stays as it is, so it answers a next state. -/
theorem witness_StepKeepsInvariant : Inv decodedState ∧ step decodedState = .next decodedState :=
  ⟨witness_invariant_decoded, rfl⟩

theorem witness_StepRunsTheDecodedRequest :
    decode (leadingBytes (hostDoes [.byte 0x02#8, .byte 0x66#8, .byte 0x02#8, .read .lk]).host) =
      .ok (.lookup 0x66#8, [0x02#8]) := rfl

theorem witness_StepServesASentRequest :
    (Instr.lookup 0x66#8).Wf ∧
    (hostDoes [.byte 0x02#8, .byte 0x66#8, .read .lk]).host = sendBytes (encode (.lookup 0x66#8)) ++ [.read .lk] := by
  decide

theorem witness_IdleBlockStays : testState.host = [] := rfl

/-- A LOOKUP without its operand: nothing follows, a reset follows, a read follows. -/
theorem witness_IncompleteRequestWaits :
    (∀ h, h = [] ∨ h = [HostAction.reset] ∨ h = [.read .lk] →
      leadingBytes (hostDoes (.byte 0x02#8 :: h)).host ≠ [] ∧
      decode (leadingBytes (hostDoes (.byte 0x02#8 :: h)).host) = .error .missingOperand) ∧
    afterBytes (hostDoes [.byte 0x02#8]).host = [] ∧
    afterBytes (hostDoes [.byte 0x02#8, .reset]).host = .reset :: [] ∧
    afterBytes (hostDoes [.byte 0x02#8, .read .lk]).host = .read .lk :: [] ∧
    ∀ c, DecodeError.missingOperand ≠ .reservedCommand c := by
  refine ⟨?_, rfl, rfl, rfl, fun c h => by cases h⟩
  rintro h (rfl | rfl | rfl) <;> exact ⟨by decide, rfl⟩

theorem witness_ConfigurationIsFixed : step testState = .next testState := rfl

/-- A DECODE that changes STATUS, a LOOKUP that changes LK, and a reset that changes both after half a request. -/
theorem witness_ResponseRegistersHaveOneWriter :
    (∃ t, step (hostDoes [.byte 0x01#8, .byte 0x00#8]) = .next t ∧ t.status ≠ none) ∧
    (∃ t, step (hostDoes [.byte 0x02#8, .byte 0x66#8, .reset]) = .next t ∧ t.lk ≠ none) ∧
    (∃ t, step { decodedState with host := [.byte 0x02#8, .reset] } = .next t ∧ t.status ≠ some 0#3 ∧ t.lk ≠ some 0#5) :=
  ⟨⟨_, rfl, by decide⟩, ⟨_, rfl, by decide⟩, ⟨_, rfl, by decide⟩⟩

/-- One step for each clause: a DECODE, a reset, and a LOOKUP with a reset behind it. -/
theorem witness_DrawNumbersAreUsedOnce :
    ((∃ t, step (hostDoes [.byte 0x01#8, .byte 0x00#8]) = .next t) ∧
      decode (leadingBytes (hostDoes [.byte 0x01#8, .byte 0x00#8]).host) = .ok (.decode [], [])) ∧
    ((∃ t, step (hostDoes [.reset]) = .next t) ∧ ResetIsNext (hostDoes [.reset]) []) ∧
    ((∃ t, step (hostDoes [.byte 0x02#8, .byte 0x66#8, .reset]) = .next t) ∧
      (∀ inp rest, decode (leadingBytes (hostDoes [.byte 0x02#8, .byte 0x66#8, .reset]).host) ≠ .ok (.decode inp, rest)) ∧
      ∀ rest, ¬ ResetIsNext (hostDoes [.byte 0x02#8, .byte 0x66#8, .reset]) rest) :=
  ⟨⟨⟨_, rfl⟩, rfl⟩, ⟨⟨_, rfl⟩, nofun, rfl⟩, ⟨_, rfl⟩, nofun, fun _ h => h.1 _ _ rfl⟩

theorem witness_EveryRequestCompletes :
    (∀ i ∈ [Instr.lookup 0x47#8, .decode textD1], i.Wf) ∧
    (hostDoes (requests [.lookup 0x47#8, .decode textD1])).host = requests [.lookup 0x47#8, .decode textD1] :=
  ⟨by decide, rfl⟩

end Sys2Proof.Tests
end

/-! SUPPORT. The statements of spec/00_scope.md: what a step that serves a request is, and that no step changes the
configuration. -/

namespace Sys2Proof.Machine

/-! ## The meaning of a request -/

@[simp] theorem exec_decode (inp : List Byte) (s : State) : exec (.decode inp) s = execDecode inp s := rfl

@[simp] theorem exec_lookup (b : Byte) (s : State) : exec (.lookup b) s = .next { s with lk := some (lut b) } := rfl

/-- A request leaves the configuration alone: a DECODE whether it fails or commits, a LOOKUP because it writes `LK`
only (R8, R102, R176). -/
theorem exec_cfg {i : Instr} {s t : State} (h : exec i s = .next t) : t.cfg = s.cfg := by
  cases i with
  | decode inp =>
    rw [exec_decode] at h
    rcases execDecode_cases h with ⟨w, c, -, rfl⟩ | ⟨w, -, rfl⟩
    · rw [failDecode_cfg, startDecode_cfg]
    · rw [commitDecode_cfg, startDecode_cfg]
  | lookup b =>
    rw [exec_lookup] at h
    obtain rfl := Host.Outcome.next.inj h
    rfl

/-! ## The step -/

/-- Where the host's next bytes decode to a request, its next action is a byte: before any other action it sends none,
and no bytes are no request. -/
theorem host_eq_byte_of_decode_ok {s : State} {i : Instr} {rest : List Byte}
    (h : decode (leadingBytes s.host) = .ok (i, rest)) : ∃ b t, s.host = .byte b :: t := by
  rcases hh : s.host with _ | ⟨b | r | _, t⟩
  · rw [hh] at h; cases h
  · exact ⟨b, t, rfl⟩
  · rw [hh] at h; cases h
  · rw [hh] at h; cases h

/-- A step on a decoded request is the request's meaning once the block has taken it (R5, R34, R62). -/
theorem step_of_decode_ok {s : State} {i : Instr} {rest : List Byte}
    (h : decode (leadingBytes s.host) = .ok (i, rest)) : step s = exec i (acceptRequest i rest s) := by
  obtain ⟨b, t, hh⟩ := host_eq_byte_of_decode_ok h
  rw [step]
  simp only [h]
  rw [hh]

/-! ## The statements -/

/-- Settles O49, by the four things a step that goes on can have done. -/
theorem configurationIsFixed : Obligations.ConfigurationIsFixed := by
  unfold Obligations.ConfigurationIsFixed
  intro s t h
  rcases step_cases h with ⟨-, -, rfl⟩ | ⟨r, rest, -, rfl⟩ | ⟨rest, -, rfl⟩ | ⟨i, rest, -, hexec⟩
  · rfl
  · rfl
  · rw [resetEvent_cfg]
  · rw [exec_cfg hexec, acceptRequest_cfg]

/-- Settles O45: the state in which the request's meaning runs is the one `acceptRequest` makes. -/
theorem stepRunsTheDecodedRequest : Obligations.StepRunsTheDecodedRequest := by
  unfold Obligations.StepRunsTheDecodedRequest
  intro s i rest h
  rw [step_of_decode_ok h, acceptRequest]

end Sys2Proof.Machine

/-! SUPPORT. The statements of spec/10_state.md: what right after reset holds, who writes the response registers and the
working registers, which staged bytes a DECODE writes and reads, and the invariant that every step keeps. -/

namespace Sys2Proof.Machine

open Sys2Proof.Safety

/-! ## What a DECODE leaves: its end, then its staged buffer -/

section
variable (r : StageResult) (s : State)

@[simp] theorem finishDecode_work : (finishDecode r s).work = r.1 := by obtain ⟨w, _ | c⟩ := r <;> rfl
@[simp] theorem finishDecode_lk : (finishDecode r s).lk = s.lk := by obtain ⟨w, _ | c⟩ := r <;> rfl
@[simp] theorem finishDecode_draws : (finishDecode r s).draws = s.draws := by obtain ⟨w, _ | c⟩ := r <;> rfl

end

/-- The staged bytes drawn for an operation are its draws, offset by offset (R26). -/
theorem stagedRead_drawn (op : Nat) {k : Nat} (hk : k < 16) :
    stagedRead (Working.drawn op).staged k = Config.drawStaged op k := by
  interval_cases k <;> rfl

/-- The hex-pair loop writes no offset past the pairs it is given, whether it fails or not (R123). -/
theorem stagedRead_hexLoop_of_le : ∀ (cs : List Byte) (i : Nat) (st : Staged) {k : Nat}, i + cs.length / 2 ≤ k →
    k < 16 → stagedRead (hexLoop cs i st).1 k = stagedRead st k
  | [], _, _, _, _, _ => rfl
  | [_], _, _, _, _, _ => rfl
  | ch :: cl :: rest, i, st, k, hle, hk => by
    simp only [List.length_cons] at hle
    simp only [hexLoop]
    cases hexpair ch cl with
    | none => rfl
    | some v =>
      calc stagedRead (hexLoop rest (i + 1) (stagedWrite st i v)).1 k
          = stagedRead (stagedWrite st i v) k := stagedRead_hexLoop_of_le rest (i + 1) _ (by omega) hk
        _ = stagedRead st k := stagedRead_stagedWrite_ne hk (by omega) (by omega) st v

/-- Stage 2 leaves the staged buffer as its loop does. -/
theorem hexStage_staged (inp : List Byte) (w : Working) :
    (hexStage inp w).1.staged = (hexLoop inp.dropLast 0 w.staged).1 := by
  rw [hexStage]
  split
  · next heq => rw [heq]
  · next heq => rw [heq]

/-- Stages that leave the staged buffer alone leave it as the stage before them did. -/
theorem stageThen_staged (r : StageResult) {f : Working → StageResult} (hf : ∀ w, (f w).1.staged = w.staged) :
    (stageThen r f).1.staged = r.1.staged := by
  obtain ⟨w, _ | c⟩ := r
  · exact hf w
  · rfl

/-- Stage 2 alone writes the staged buffer: past the length gate, DECODE leaves it as the hex-pair loop does (R123). -/
theorem decodeStages_staged {cfg : Params} {inp : List Byte} {w : Working} (hl : lengthGate inp.length = none) :
    (decodeStages cfg inp w).1.staged = (hexLoop inp.dropLast 0 w.staged).1 := by
  simp only [decodeStages, lengthStage, hl, stageThen_none]
  rw [← hexStage_staged]
  apply stageThen_staged; intro w
  apply stageThen_staged; intro w
  apply stageThen_staged; intro w
  apply stageThen_staged; intro w
  exact stageThen_staged (checksumStage cfg w) fun _ => rfl

/-- A staged offset past a string's pairs holds after DECODE what it held before, whatever the outcome (R124). -/
theorem stagedRead_decodeStages_of_le {cfg : Params} {inp : List Byte} {w : Working} {k : Nat}
    (hle : (inp.length - 1) / 2 ≤ k) (hk : k < 16) :
    stagedRead (decodeStages cfg inp w).1.staged k = stagedRead w.staged k := by
  cases hl : lengthGate inp.length with
  | some c => rw [decodeStages_gate cfg w hl]
  | none =>
    rw [decodeStages_staged hl]
    exact stagedRead_hexLoop_of_le _ 0 _ (by rw [List.length_dropLast]; omega) hk

/-! ## What the frame's fields are read from -/

section
variable {bs bs' : List Byte} {d d' : Staged} {n : Nat} (h : ∀ k, k < n → stagedByte bs d k = stagedByte bs' d' k)
include h

theorem frameRawId_congr (hn : 5 ≤ n) : frameRawId bs d = frameRawId bs' d' := by
  rw [frameRawId, h 1 (by omega), h 2 (by omega), h 3 (by omega), h 4 (by omega), frameRawId]

theorem frameDlc_congr (hn : 6 ≤ n) : frameDlc bs d = frameDlc bs' d' := by
  rw [frameDlc, h 5 (by omega), frameDlc]

theorem frameChecksum_congr (cfg : Params) (hn : 6 + frameDlc bs d ≤ n) :
    frameChecksum cfg bs d = frameChecksum cfg bs' d' := by
  rw [frameChecksum, frameChecksum, ← frameDlc_congr h (by omega)]
  congr 2
  apply List.map_congr_left
  intro k hk
  rw [List.mem_range] at hk
  exact h k (by omega)

theorem storedChecksum_congr (hn : 7 + frameDlc bs d ≤ n) : storedChecksum bs d = storedChecksum bs' d' := by
  rw [storedChecksum, h _ (by omega), frameDlc_congr h (by omega), storedChecksum]

end

/-- Registers extracted from bytes that agree up to the payload region's end hold the same frames (R170 to R174). -/
theorem Extracted.frames_eq {inp inp' bs bs' : List Byte} {w w' e e' : Working} (he : Extracted inp bs w e)
    (he' : Extracted inp' bs' w' e') (h : ∀ k, k < 14 → stagedByte bs w.staged k = stagedByte bs' w'.staged k)
    (cfg : Params) : socketFrameOf cfg e = socketFrameOf cfg e' ∧ decodedFrameOf e = decodedFrameOf e' := by
  have hseq : e.seq = e'.seq := by rw [he.seq, he'.seq, h 0 (by omega)]
  have hrawid : e.rawid = e'.rawid := by rw [he.rawid, he'.rawid, frameRawId_congr h (by omega)]
  have hdlc : e.dlc = e'.dlc := BitVec.eq_of_toNat_eq (by rw [he.dlc, he'.dlc, frameDlc_congr h (by omega)])
  have hread (k : Nat) (hk : k < 14) : stagedRead e.staged k = stagedRead e'.staged k := by
    rw [he.staged k (by omega), he'.staged k (by omega), h k hk]
  have hdata : payloadRegion e.staged = payloadRegion e'.staged := by
    simp (disch := omega) only [payloadRegion, hread]
  simp only [socketFrameOf, decodedFrameOf, hseq, hrawid, hdlc, hdata, and_self]

/-- The checksum writes no register that a frame is made of. -/
theorem socketFrameOf_checksumStage (cfg : Params) (w : Working) :
    socketFrameOf cfg (checksumStage cfg w).1 = socketFrameOf cfg w := rfl

theorem decodedFrameOf_checksumStage (cfg : Params) (w : Working) :
    decodedFrameOf (checksumStage cfg w).1 = decodedFrameOf w := rfl

/-- DECODE reads offsets 0..14 of the buffer it starts with and no other: the checksum byte lies at 14 at most (R25). -/
theorem decodeStages_congr {cfg : Params} {inp : List Byte} {w w' : Working}
    (h : ∀ k, k < 15 → stagedRead w.staged k = stagedRead w'.staged k) :
    (decodeStages cfg inp w).2 = (decodeStages cfg inp w').2 ∧
    ((decodeStages cfg inp w).2 = none →
      socketFrameOf cfg (decodeStages cfg inp w).1 = socketFrameOf cfg (decodeStages cfg inp w').1 ∧
      decodedFrameOf (decodeStages cfg inp w).1 = decodedFrameOf (decodeStages cfg inp w').1) := by
  cases hl : lengthGate inp.length with
  | some c =>
    rw [decodeStages_gate cfg w hl, decodeStages_gate cfg w' hl]
    exact ⟨rfl, nofun⟩
  | none =>
    have hlen : LengthOk inp := lengthGate_eq_none.mp hl
    cases hs : spelledBytes inp with
    | none =>
      obtain ⟨_, hw⟩ := decodeStages_invalidHex cfg w hlen hs
      obtain ⟨_, hw'⟩ := decodeStages_invalidHex cfg w' hlen hs
      rw [hw, hw']
      exact ⟨rfl, nofun⟩
    | some bs =>
      have hb (k : Nat) (hk : k < 15) : stagedByte bs w.staged k = stagedByte bs w'.staged k := by
        rw [stagedByte, h k hk, stagedByte]
      obtain ⟨e, he, hw⟩ := decodeStages_spec cfg w hlen hs
      obtain ⟨e', he', hw'⟩ := decodeStages_spec cfg w' hlen hs
      rw [← frameRawId_congr hb (by omega), ← frameDlc_congr hb (by omega)] at hw'
      rw [hw, hw']
      by_cases hi : IdLegal cfg (frameRawId bs w.staged)
      · by_cases hd : frameDlc bs w.staged > 8
        · simp [hi, hd]
        · simp only [hi, hd, not_true_eq_false, if_false, socketFrameOf_checksumStage, decodedFrameOf_checksumStage,
            frameChecksum_congr hb cfg (by omega), storedChecksum_congr hb (by omega), true_and]
          exact fun _ => he.frames_eq he' (fun k hk => hb k (by omega)) cfg
      · simp [hi]

/-! ## The host's reads and the reset -/

/-- A host read at the front of the host's actions is what the step serves. -/
theorem step_of_host_read {s : State} {r : HostReg} {rest : List HostAction} (h : s.host = .read r :: rest) :
    step s = hostRead r rest s := by
  rw [step]
  simp only [h]

theorem hostRead_of_none {s : State} {r : HostReg} (rest : List HostAction) (h : readReg r s = none) :
    hostRead r rest s = .fault (.noValue r) := by
  simp only [hostRead, h]

/-- A frame register holds a value exactly when its frame does (R37, R38). -/
theorem readReg_isSome_of_frameRegister {r : HostReg} (s : State) (h : FrameRegister r) :
    (readReg r s).isSome = s.df.isSome ∨ (readReg r s).isSome = s.sf.isSome := by
  obtain ⟨hstatus, hlk⟩ := h
  cases r with
  | status => exact absurd rfl hstatus
  | lk => exact absurd rfl hlk
  | dfSeq | dfId | dfDlc | dfData | dfData64 => exact .inl Option.isSome_map
  | sfCanid | sfDlc | sfData => exact .inr Option.isSome_map

/-- A step that goes on where a reset comes next is that reset. -/
theorem eq_resetEvent_of_resetIsNext {s t : State} {rest : List HostAction} (hr : ResetIsNext s rest)
    (h : step s = .next t) : t = resetEvent rest s := by
  obtain ⟨hnone, hafter⟩ := hr
  rcases step_cases h with ⟨-, hnil, -⟩ | ⟨r, rest', hread, -⟩ |
    ⟨rest', ⟨-, hafter'⟩, rfl⟩ | ⟨i, rest', hd, -⟩
  · rw [hnil] at hafter; cases hafter
  · rw [hread] at hafter; cases hafter
  · rw [hafter] at hafter'; cases hafter'; rfl
  · exact absurd hd (hnone i rest')

/-! ## The invariant -/

/-- The default parameters meet R8. -/
theorem params_legal : Config.params.Legal := ⟨.inl rfl, .inr (.inl rfl), by decide⟩

/-- The invariant is about the configuration and the response registers alone. -/
theorem inv_of_registers_eq {s t : State} (hi : Inv s) (hcfg : t.cfg = s.cfg) (hstatus : t.status = s.status)
    (hlk : t.lk = s.lk) (hdf : t.df = s.df) (hsf : t.sf = s.sf) : Inv t where
  legal := hcfg ▸ hi.legal
  status := hstatus ▸ hi.status
  df := by rw [hdf, hstatus]; exact hi.df
  sf := by rw [hsf, hstatus]; exact hi.sf
  frames := by rw [hdf, hsf, hcfg]; exact hi.frames
  lk := by rw [hlk]; exact hi.lk

/-- Where no response register holds a value, the invariant asks for a legal configuration alone (R43). -/
theorem inv_idle {cfg : Params} (h : cfg.Legal) (op : Nat) : Inv (State.idle cfg op) where
  legal := h
  status := nofun
  df := ⟨nofun, nofun⟩
  sf := ⟨nofun, nofun⟩
  frames := nofun
  lk := nofun

theorem inv_resetEvent {s : State} (hi : Inv s) (rest : List HostAction) : Inv (resetEvent rest s) :=
  inv_of_registers_eq (inv_idle hi.legal s.draws) rfl rfl rfl rfl rfl

/-- No failure's code is OK, and none is the unused code 7 (R75). -/
theorem statusOf_ne (c : FailCode) : statusOf c ≠ statusOk ∧ statusOf c ≠ 7#3 := by
  cases c <;> decide

/-- A failure empties both frames under a code that is not OK (R39, R200). -/
theorem inv_failDecode {s : State} (hi : Inv s) (c : FailCode) (w : Working) : Inv (failDecode c w s) := by
  obtain ⟨hok, hseven⟩ := statusOf_ne c
  exact {
    legal := hi.legal
    status := by simpa using hseven
    df := by simpa using hok
    sf := by simpa using hok
    frames := nofun
    lk := hi.lk }

/-- The two frames made of working registers that have passed the identifier check and the DLC check agree (R177). -/
theorem framesAgree_of_checks {cfg : Params} {w : Working} (hid : idIllegal cfg w.rawid = false)
    (hdlc : dlcIllegal w.dlc = false) : FramesAgree cfg (decodedFrameOf w) (socketFrameOf cfg w) := by
  have hlegal : IdLegal cfg w.rawid := by
    by_contra hn
    rw [(idIllegal_iff cfg w.rawid).mpr hn] at hid
    cases hid
  have hle : w.dlc.toNat ≤ 8 := by
    by_contra hn
    rw [(dlcIllegal_iff w.dlc).mpr (by omega)] at hdlc
    cases hdlc
  refine ⟨rfl, ?_, rfl, hlegal, rfl⟩
  rw [decodedFrameOf_dlc, BitVec.toNat_setWidth]
  omega

/-- A commit fills both frames under OK, out of registers that have passed the checks (R175, R177). -/
theorem inv_commitDecode {s : State} {w : Working} (hi : Inv s) (hid : idIllegal s.cfg w.rawid = false)
    (hdlc : dlcIllegal w.dlc = false) : Inv (commitDecode w s) where
  legal := hi.legal
  status := by rw [commitDecode_status]; decide
  df := by simp
  sf := by simp
  frames := by
    intro d f hd hf
    obtain rfl := Option.some.inj hd
    obtain rfl := Option.some.inj hf
    exact framesAgree_of_checks hid hdlc
  lk := hi.lk

/-- LOOKUP writes LK with a word of the table and nothing else (R102). -/
theorem inv_lookup {s : State} (hi : Inv s) (b : Byte) : Inv { s with lk := some (lut b) } where
  legal := hi.legal
  status := hi.status
  df := hi.df
  sf := hi.sf
  frames := hi.frames
  lk := by
    intro v hv
    obtain rfl := Option.some.inj hv
    exact ⟨b, rfl⟩

/-- Every request keeps the invariant: a DECODE whether it fails or commits, and a LOOKUP. -/
theorem inv_exec {i : Instr} {s t : State} (hi : Inv s) (h : exec i s = .next t) : Inv t := by
  cases i with
  | decode inp =>
    rw [exec_decode] at h
    have hstart : Inv (startDecode s) := inv_of_registers_eq hi rfl rfl rfl rfl rfl
    rcases execDecode_cases h with ⟨w, c, -, rfl⟩ | ⟨w, hok, rfl⟩
    · exact inv_failDecode hstart c w
    · obtain ⟨hid, hdlc⟩ := decodeStages_ok hok
      exact inv_commitDecode hstart hid hdlc
  | lookup b =>
    rw [exec_lookup] at h
    obtain rfl := Host.Outcome.next.inj h
    exact inv_lookup hi b

/-! ## The statements -/

/-- Settles O52, by the four things a step that goes on can have done. -/
theorem stepKeepsInvariant : Obligations.StepKeepsInvariant := by
  unfold Obligations.StepKeepsInvariant
  intro s t hi h
  rcases step_cases h with ⟨-, -, rfl⟩ | ⟨r, rest, -, rfl⟩ | ⟨rest, -, rfl⟩ | ⟨i, rest, -, hexec⟩
  · exact hi
  · exact inv_of_registers_eq hi rfl rfl rfl rfl rfl
  · exact inv_resetEvent hi rest
  · have htaken : Inv (acceptRequest i rest s) := inv_of_registers_eq hi rfl rfl rfl rfl rfl
    exact inv_exec htaken hexec

/-- Settles O30: a string the gate lets pass has at most 15 pairs, and the stages read no offset above 14. -/
theorem offsetFifteenIsUnused : Obligations.OffsetFifteenIsUnused := by
  unfold Obligations.OffsetFifteenIsUnused
  intro cfg inp w w'
  refine ⟨?_, decodeStages_congr⟩
  cases hl : lengthGate inp.length with
  | some c => rw [decodeStages_gate cfg w hl]
  | none =>
    obtain ⟨-, hmax⟩ := lengthGate_eq_none.mp hl
    exact stagedRead_decodeStages_of_le (by omega) (by omega)

/-- Settles O50: what is neither a request nor a reset writes no response register, a DECODE leaves LK alone, and a
LOOKUP writes nothing else. -/
theorem responseRegistersHaveOneWriter : Obligations.ResponseRegistersHaveOneWriter := by
  unfold Obligations.ResponseRegistersHaveOneWriter
  intro s t h
  rcases step_cases h with ⟨-, -, rfl⟩ | ⟨r, rest, -, rfl⟩ | ⟨rest, hr, rfl⟩ | ⟨i, rest, hd, hexec⟩
  · simp
  · simp
  · exact ⟨fun _ => .inr ⟨rest, hr, rfl⟩, fun _ => .inr ⟨rest, hr, rfl⟩⟩
  · cases i with
    | decode inp =>
      rw [exec_decode, execDecode_eq] at hexec
      obtain rfl := Host.Outcome.next.inj hexec
      exact ⟨fun _ => .inl ⟨inp, rest, hd⟩, fun hlk => absurd (by simp) hlk⟩
    | lookup b =>
      rw [exec_lookup] at hexec
      obtain rfl := Host.Outcome.next.inj hexec
      exact ⟨fun hchange => by simp at hchange, fun _ => .inl ⟨b, rest, hd⟩⟩

/-- Settles O54: the loop writes no offset past the string's pairs, and no later stage writes the buffer. -/
theorem decodeTakesItsOwnDraws : Obligations.DecodeTakesItsOwnDraws := by
  unfold Obligations.DecodeTakesItsOwnDraws
  intro inp s
  refine ⟨_, execDecode_eq inp s, by simp, fun k hk hle => ?_⟩
  rw [finishDecode_work, stagedRead_decodeStages_of_le hle hk, stagedRead_drawn _ hk]

/-- Settles O55: a served DECODE and a reset draw once each; of what else a step can do, none draws. -/
theorem drawNumbersAreUsedOnce : Obligations.DrawNumbersAreUsedOnce := by
  unfold Obligations.DrawNumbersAreUsedOnce
  intro s t h
  refine ⟨fun inp rest hd => ?_, fun rest hr => ?_, fun hdec hres => ?_⟩
  · rw [step_of_decode_ok hd, exec_decode, execDecode_eq] at h
    obtain rfl := Host.Outcome.next.inj h
    simp
  · obtain rfl := eq_resetEvent_of_resetIsNext hr h
    exact ⟨rfl, rfl⟩
  · rcases step_cases h with ⟨-, -, rfl⟩ | ⟨r, rest, -, rfl⟩ | ⟨rest, hr, -⟩ | ⟨i, rest, hd, hexec⟩
    · exact ⟨rfl, rfl⟩
    · exact ⟨rfl, rfl⟩
    · exact absurd hr (hres rest)
    · cases i with
      | decode inp => exact absurd hd (hdec inp rest)
      | lookup b =>
        rw [exec_lookup] at hexec
        obtain rfl := Host.Outcome.next.inj hexec
        exact ⟨rfl, rfl⟩

/-- Settles O39: the idle state holds no value in any register the host can read. -/
theorem resetLeavesNoValues : Obligations.ResetLeavesNoValues := by
  unfold Obligations.ResetLeavesNoValues
  refine ⟨fun r => ?_, rfl, rfl, rfl, rfl, rfl, rfl, rfl, rfl, params_legal⟩
  cases r <;> rfl

/-- Settles O41. -/
theorem readOfNoValueFaults : Obligations.ReadOfNoValueFaults := by
  unfold Obligations.ReadOfNoValueFaults
  intro s r rest hhost hnone
  rw [step_of_host_read hhost, hostRead_of_none rest hnone]

/-- Settles O44: a frame register reads one of the two frames, and the invariant holds each to STATUS. -/
theorem framesReadableExactlyAfterOk : Obligations.FramesReadableExactlyAfterOk := by
  unfold Obligations.FramesReadableExactlyAfterOk
  intro s r hi hr
  rcases readReg_isSome_of_frameRegister s hr with h | h
  · rw [h]; exact hi.df
  · rw [h]; exact hi.sf

/-- Settles O51. -/
theorem invariantAtReset : Obligations.InvariantAtReset := inv_idle params_legal 0

end Sys2Proof.Machine

/-! SUPPORT. The statements of spec/20_memory.md: the two views of the payload, what a host read leaves alone, and that
a request the host has sent is served whole. -/

namespace Sys2Proof.Machine

/-! ## The 64-bit view of the payload -/

/-- Bits k+7..k of a 64-bit value, moved to the bottom and masked, are the byte that stands there. -/
theorem ushiftRight_and_byte (v : BitVec 64) (k : Nat) : (v >>> k) &&& 0xFF#64 = (v.extractLsb' k 8).setWidth 64 := by
  apply BitVec.eq_of_toNat_eq
  calc ((v >>> k) &&& 0xFF#64).toNat
      = v.toNat >>> k &&& 2 ^ 8 - 1 := by simp
    _ = v.toNat >>> k % 2 ^ 8 := Nat.and_two_pow_sub_one_eq_mod _ 8
    _ = ((v.extractLsb' k 8).setWidth 64).toNat := by rw [BitVec.toNat_setWidth, BitVec.extractLsb'_toNat]; omega

/-- Byte `i` of the 64-bit view is byte `i` of the payload (R54c). -/
theorem extractLsb'_payloadWord (d : Payload) (i : Fin 8) : (payloadWord d).extractLsb' (8 * i.val) 8 = d.get i := by
  fin_cases i
  all_goals
    simp (disch := decide) only [payloadWord, BitVec.extractLsb'_append_eq_of_le,
      BitVec.extractLsb'_append_eq_of_add_le]
    exact BitVec.extractLsb'_eq_self

/-! ## The host's reads and requests -/

theorem readReg_dfData64 {s : State} {f : DecodedFrame} (h : s.df = some f) :
    readReg .dfData64 s = some (payloadWord f.data) := by
  simp only [readReg, h, Option.map_some]

theorem readReg_dfData {s : State} {f : DecodedFrame} (h : s.df = some f) (i : Fin 8) :
    readReg (.dfData i) s = some ((f.data.get i).setWidth 64) := by
  simp only [readReg, h, Option.map_some]

theorem hostRead_of_some {s : State} {r : HostReg} {v : BitVec 64} (rest : List HostAction) (h : readReg r s = some v) :
    hostRead r rest s = .next { s with host := rest } := by
  simp only [hostRead, h]

/-- A well-formed request is read back from its encoding, and the bytes after it are left (R70 to R73). -/
theorem decode_encode_append {i : Instr} (hwf : i.Wf) (rest : List Byte) : decode (encode i ++ rest) = .ok (i, rest) := by
  cases i with
  | decode inp =>
    have hsplit := splitAtNul_append rest ((wf_decode_iff inp).mp hwf)
    rw [encode, List.cons_append, decode_decodeCommand, decodeString, List.append_assoc, List.singleton_append, hsplit]
  | lookup b => rfl

/-! ## The statements -/

/-- Settles O46: the bytes the host sends next are the encoding and whatever bytes follow it, so the request is read
back and exactly what stood behind it is left. -/
theorem stepServesASentRequest : Obligations.StepServesASentRequest := by
  unfold Obligations.StepServesASentRequest
  intro s i rest hwf hhost
  have hdecode : decode (leadingBytes s.host) = .ok (i, leadingBytes rest) := by
    rw [hhost, leadingBytes_sendBytes, decode_encode_append hwf]
  rw [step_of_decode_ok hdecode, acceptRequest, hhost, afterBytes_sendBytes, sendBytes_leadingBytes]

/-- Settles O43: both views read the payload of the one DecodedFrame. -/
theorem payloadViewsAgree : Obligations.PayloadViewsAgree := by
  unfold Obligations.PayloadViewsAgree
  intro s f hf
  refine ⟨payloadWord f.data, readReg_dfData64 hf, fun i => ?_⟩
  rw [readReg_dfData hf, ushiftRight_and_byte, extractLsb'_payloadWord]

/-- Settles O42. -/
theorem readHasNoSideEffect : Obligations.ReadHasNoSideEffect := by
  unfold Obligations.ReadHasNoSideEffect
  intro s r rest v hhost hsome
  rw [step_of_host_read hhost, hostRead_of_some rest hsome]

end Sys2Proof.Machine

/-! SUPPORT. The statements of spec/30_encoding.md: the decoder against the encoder, the request notation, the hex
spelling of bytes, and the layout of the arbitration identifier. -/

namespace Sys2Proof.Machine

open Sys2Proof.Safety

/-! ## The decoder's answers -/

/-- A command byte other than the two of R71 is rejected by its value: one of its fields is not theirs (R83). -/
theorem decode_of_reserved {c : Byte} (hdec : c ≠ 0x01#8) (hlook : c ≠ 0x02#8) (bs : List Byte) :
    decode (c :: bs) = .error (.reservedCommand c) := by
  obtain ⟨hone, htwo⟩ := command_fields c
  by_cases hrsv : commandRsv c = 0#4
  · have hop1 : commandOp c ≠ 0x1#4 := fun hop => hdec (hone.mp ⟨hrsv, hop⟩)
    have hop2 : commandOp c ≠ 0x2#4 := fun hop => hlook (htwo.mp ⟨hrsv, hop⟩)
    simp [decode, hop1, hop2]
  · simp [decode, hrsv]

/-- The operand of a DECODE is read where a 0x00 ends it, and the string before it is the request's (R72). -/
theorem decodeString_eq_ok {bs rest : List Byte} {i : Instr} (h : decodeString bs = .ok (i, rest)) :
    ∃ inp, i = .decode inp ∧ splitAtNul bs = some (inp, rest) := by
  rw [decodeString] at h
  split at h
  · next inp rest' hsplit =>
    cases h
    exact ⟨inp, rfl, hsplit⟩
  · cases h

/-- The operand of a LOOKUP is one byte (R73). -/
theorem decodeOperandByte_eq_ok {bs rest : List Byte} {i : Instr} (h : decodeOperandByte bs = .ok (i, rest)) :
    ∃ b, i = .lookup b ∧ bs = b :: rest := by
  cases bs with
  | nil => cases h
  | cons b bs =>
    cases h
    exact ⟨b, rfl, rfl⟩

/-! ## The hex spelling of bytes -/

/-- The table's word for the spelling of a nibble is that nibble, `ERR` clear (R88, R100). -/
theorem lut_hexDigit (n : Nibble) : lut (hexDigit n) = 0#1 ++ n := by
  revert n
  decide

theorem hexDigit_ne_zero (n : Nibble) : hexDigit n ≠ 0#8 := by
  revert n
  decide

/-- Two spelled nibbles pair up to the byte that has them side by side, the first one high (R103). -/
theorem hexpair_hexDigit (h l : Nibble) : hexpair (hexDigit h) (hexDigit l) = some (h ++ l) := by
  simp only [hexpair, lut_hexDigit]
  revert h l
  decide

/-- The spelling of bytes is read back, pair by pair, to those bytes (R88, R103). -/
theorem pairBytes_hexText (bs : List Byte) : pairBytes (hexText bs) = some bs := by
  induction bs with
  | nil => rfl
  | cons b bs ih =>
    have hjoin : b.extractLsb' 4 4 ++ b.extractLsb' 0 4 = b := BitVec.extractLsb'_append_extractLsb'
    exact pairBytes_pair_eq_some.mpr ⟨b, bs, by rw [hexpair_hexDigit, hjoin], ih, rfl⟩

@[simp] theorem length_hexText (bs : List Byte) : (hexText bs).length = 2 * bs.length := by
  induction bs with
  | nil => rfl
  | cons b bs ih => simp only [hexText, List.length_cons, ih]; omega

theorem ne_zero_of_mem_hexText {bs : List Byte} {c : Byte} (h : c ∈ hexText bs) : c ≠ 0#8 := by
  induction bs with
  | nil => cases h
  | cons b bs ih =>
    simp only [hexText, List.mem_cons] at h
    rcases h with rfl | rfl | h
    · exact hexDigit_ne_zero _
    · exact hexDigit_ne_zero _
    · exact ih h

/-! ## The pseudo-instruction DECODE.F -/

section
variable (cfg : Params) (seq : Byte) (rawid : Word32) (dlcByte : Byte) (payload : List Byte)

/-- Six bytes of header, the payload and the checksum are spelled, and a newline is added (R78, R88). -/
theorem length_frameText : (frameText cfg seq rawid dlcByte payload).length = 15 + 2 * payload.length := by
  simp only [frameText, frameBytes, List.length_append, length_hexText, List.length_cons, List.length_nil]
  omega

/-- DECODE.F's string is hex digits and a newline, so it holds no 0x00 (R50, R88). -/
theorem wf_expandLine_decodeF : (expandLine cfg (.decodeF seq rawid dlcByte payload)).Wf := by
  rw [expandLine, wf_decode_iff]
  intro c hc
  rcases List.mem_append.mp hc with hspelled | hnewline
  · exact ne_zero_of_mem_hexText hspelled
  · obtain rfl := List.mem_singleton.mp hnewline
    decide

end

/-! ## The notation's reader -/

/-- Whatever has been read, its bytes hold no 0x00. -/
def ReadsNoNul (r : Option (List Byte × List Byte)) : Prop :=
  ∀ inp rest, r = some (inp, rest) → ∀ b ∈ inp, b ≠ 0#8

theorem readsNoNul_none : ReadsNoNul none := fun _ _ h => nomatch h

theorem readsNoNul_some_nil (t : List Byte) : ReadsNoNul (some ([], t)) := by
  rintro inp rest h
  cases h
  exact List.forall_mem_nil _

/-- A byte that is not 0x00, then what was read after it. -/
theorem ReadsNoNul.cons {r : Option (List Byte × List Byte)} {c : Byte} (hr : ReadsNoNul r) (hc : c ≠ 0#8) :
    ReadsNoNul (r.map (fun p => (c :: p.1, p.2))) := by
  intro inp rest h
  obtain ⟨⟨inp', rest'⟩, hread, heq⟩ := Option.map_eq_some_iff.mp h
  cases heq
  exact List.forall_mem_cons.mpr ⟨hc, hr inp' rest' hread⟩

/-- A quoted string holds no 0x00, wherever in an escape its reading starts: a plain character and a `\xHH` byte are
judged, and `\n` is 0x0A (R87). -/
theorem readsNoNul_quotedString (st : EscapeState) (t : List Byte) : ReadsNoNul (quotedString st t) := by
  induction t generalizing st with
  | nil => cases st <;> exact readsNoNul_none
  | cons c t ih =>
    cases st with
    | plain =>
      simp only [quotedString]
      split_ifs with hquote hslash hzero
      · exact readsNoNul_some_nil t
      · exact ih .backslash
      · exact readsNoNul_none
      · exact (ih .plain).cons hzero
    | backslash =>
      simp only [quotedString]
      split_ifs
      · exact (ih .plain).cons (by decide)
      · exact ih .hexHigh
      · exact readsNoNul_none
    | hexHigh => exact ih (.hexLow c)
    | hexLow high =>
      simp only [quotedString]
      cases hexpair high c with
      | none => exact readsNoNul_none
      | some b =>
        dsimp only
        split_ifs with hzero
        · exact readsNoNul_none
        · exact (ih .plain).cons hzero

/-- A line after LOOKUP is a LOOKUP (R87). -/
theorem parseLookup_eq_some {t rest : List Byte} {l : SourceLine} (h : parseLookup t = some (l, rest)) :
    ∃ b, l = .lookup b := by
  obtain ⟨⟨b, rest'⟩, -, heq⟩ := Option.map_eq_some_iff.mp h
  cases heq
  exact ⟨b, rfl⟩

/-- A line after DECODE is a DECODE of a quoted string (R87). -/
theorem parseDecode_eq_some {t rest : List Byte} {l : SourceLine} (h : parseDecode t = some (l, rest)) :
    ∃ inp t', l = .decode inp ∧ quotedString .plain t' = some (inp, rest) := by
  rw [parseDecode] at h
  split at h
  · next t' _ =>
    obtain ⟨⟨inp, rest'⟩, hq, heq⟩ := Option.map_eq_some_iff.mp h
    cases heq
    exact ⟨inp, t', rfl, hq⟩
  · cases h

/-- A line after DECODE.F is a DECODE.F (R88). -/
theorem parseDecodeF_eq_some {t rest : List Byte} {l : SourceLine} (h : parseDecodeF t = some (l, rest)) :
    ∃ seq rawid dlcByte payload, l = .decodeF seq rawid dlcByte payload := by
  rw [parseDecodeF] at h
  split at h
  · cases h
  · next seq _ _ =>
    split at h
    · cases h
    · next rawid _ _ =>
      split at h
      · cases h
      · next dlcByte _ _ =>
        obtain ⟨⟨payload, rest'⟩, -, heq⟩ := Option.map_eq_some_iff.mp h
        cases heq
        exact ⟨seq, rawid, dlcByte, payload, rfl⟩

/-- What the reader takes is no line, or the one line that an operand reader answers (R87, R88). -/
theorem mem_of_parseLine {t : List Byte} {ls : List SourceLine} {l : SourceLine} (h : parseLine t = some ls)
    (hl : l ∈ ls) : ∃ t' rest,
      parseLookup t' = some (l, rest) ∨ parseDecode t' = some (l, rest) ∨ parseDecodeF t' = some (l, rest) := by
  simp only [parseLine] at h
  split at h
  · cases h
    cases hl
  · split at h
    · next line rest hparsed =>
      split at h
      · cases h
        obtain rfl := List.mem_singleton.mp hl
        split at hparsed
        · next t' _ => exact ⟨t', rest, .inl hparsed⟩
        · split at hparsed
          · cases hparsed
          · split at hparsed
            · next t' _ => exact ⟨t', rest, .inr (.inr hparsed)⟩
            · obtain ⟨t', -, hdecode⟩ := Option.bind_eq_some_iff.mp hparsed
              exact ⟨t', rest, .inr (.inl hdecode)⟩
      · cases h
    · cases h

/-! ## The arbitration identifier -/

/-- Bits 28..0 of the arbitration id, those without its flags (R81). -/
abbrev idBits : Word32 := 0x1FFFFFFF#32

/-- A flag of R8 is a bit above the identifier bits. -/
theorem singleFlag_spec {f : Word32} (h : SingleFlag f) : f &&& idBits = 0#32 ∧ f ≠ 0#32 := by
  rcases h with rfl | rfl | rfl <;> decide

/-- Two different flags of R8 share no bit. -/
theorem singleFlag_and_eq_zero {f g : Word32} (hf : SingleFlag f) (hg : SingleFlag g) (hne : f ≠ g) :
    f &&& g = 0#32 := by
  revert hne
  rcases hf with rfl | rfl | rfl <;> rcases hg with rfl | rfl | rfl <;> decide

section
variable (v : Word32) {k : Nat} (hk : 3 ≤ k)
include hk

/-- A value moved down by three places or more lies in the identifier bits. -/
theorem ushiftRight_and_idBits : v >>> k &&& idBits = v >>> k := by
  have hlt : v.toNat >>> k < 2 ^ 29 := by
    rw [Nat.shiftRight_eq_div_pow, Nat.div_lt_iff_lt_mul (Nat.two_pow_pos k)]
    calc v.toNat < 2 ^ 29 * 2 ^ 3 := v.isLt
      _ ≤ 2 ^ 29 * 2 ^ k := Nat.mul_le_mul_left _ (Nat.pow_le_pow_right (by decide) hk)
  apply BitVec.eq_of_toNat_eq
  calc (v >>> k &&& idBits).toNat
      = v.toNat >>> k &&& 2 ^ 29 - 1 := by simp
    _ = v.toNat >>> k := by rw [Nat.and_two_pow_sub_one_eq_mod, Nat.mod_eq_of_lt hlt]
    _ = (v >>> k).toNat := (BitVec.toNat_ushiftRight v k).symm

/-- So it shares no bit with a flag of R8. -/
theorem ushiftRight_and_singleFlag {f : Word32} (hf : SingleFlag f) : v >>> k &&& f = 0#32 := by
  rw [← ushiftRight_and_idBits v hk, BitVec.and_assoc, BitVec.and_comm idBits, (singleFlag_spec hf).1, BitVec.and_zero]

end

/-- How many places the identifier is moved down: 3 on the extended path, 21 on the standard path (R170, R171). -/
def idShift (rawid : Word32) : Nat := if ideFlag rawid then 3 else 21

theorem three_le_idShift (rawid : Word32) : 3 ≤ idShift rawid := by
  rw [idShift]
  split <;> decide

/-- Both paths in one form: the identifier moved down, then the two flags, each where its bit of the raw identifier is
set (R170, R171). -/
theorem arbitrationId_eq (cfg : Params) (rawid : Word32) :
    arbitrationId cfg rawid = rawid >>> idShift rawid |||
      (if ideFlag rawid then cfg.effFlag else 0#32) ||| rtrBits cfg rawid := by
  cases hide : ideFlag rawid with
  | true => simp only [arbitrationId, idShift, hide, if_true]
  | false => simp only [arbitrationId, idShift, hide, Bool.false_eq_true, if_false, BitVec.or_zero]

/-- The identifier bits and the two flags of the arbitration id, each read alone: no other part of it reaches there
(R81, R170, R171). -/
theorem arbitrationId_and {cfg : Params} (rawid : Word32) (h : cfg.Legal) :
    arbitrationId cfg rawid &&& idBits = rawid >>> idShift rawid ∧
    arbitrationId cfg rawid &&& cfg.effFlag = (if ideFlag rawid then cfg.effFlag else 0#32) ∧
    arbitrationId cfg rawid &&& cfg.rtrFlag = rtrBits cfg rawid := by
  obtain ⟨heff, hrtr, hne⟩ := h
  have hk := three_le_idShift rawid
  have heffrtr := singleFlag_and_eq_zero heff hrtr hne
  have hrtreff := singleFlag_and_eq_zero hrtr heff hne.symm
  simp only [arbitrationId_eq, BitVec.and_or_distrib_right, ushiftRight_and_idBits rawid hk,
    ushiftRight_and_singleFlag rawid hk heff, ushiftRight_and_singleFlag rawid hk hrtr]
  rw [rtrBits]
  refine ⟨?_, ?_, ?_⟩
  · split_ifs <;> simp [(singleFlag_spec heff).1, (singleFlag_spec hrtr).1]
  · split_ifs <;> simp [hrtreff]
  · split_ifs <;> simp [heffrtr]

/-! ## The statements -/

/-- Settles O1. -/
theorem decodeInvertsEncode : Obligations.DecodeInvertsEncode := by
  unfold Obligations.DecodeInvertsEncode
  exact fun i rest hwf => decode_encode_append hwf rest

/-- Settles O2: the command byte is one of the two, and each one's operand reader answers what the encoder writes. -/
theorem decodedBytesAreTheEncoding : Obligations.DecodedBytesAreTheEncoding := by
  unfold Obligations.DecodedBytesAreTheEncoding
  intro bs i rest h
  cases bs with
  | nil => cases h
  | cons c bs =>
    by_cases hdec : c = 0x01#8
    · subst hdec
      rw [decode_decodeCommand] at h
      obtain ⟨inp, rfl, hsplit⟩ := decodeString_eq_ok h
      obtain ⟨hnul, rfl⟩ := splitAtNul_some hsplit
      exact ⟨(wf_decode_iff inp).mpr hnul, by simp [encode]⟩
    · by_cases hlook : c = 0x02#8
      · subst hlook
        rw [decode_lookupCommand] at h
        obtain ⟨b, rfl, rfl⟩ := decodeOperandByte_eq_ok h
        exact ⟨rfl, rfl⟩
      · rw [decode_of_reserved hdec hlook] at h
        cases h

/-- Settles O6: LOOKUP takes any byte, a quoted string holds no 0x00, and neither does what DECODE.F spells. -/
theorem readLinesAreWellFormed : Obligations.ReadLinesAreWellFormed := by
  unfold Obligations.ReadLinesAreWellFormed
  intro cfg t ls h l hl
  obtain ⟨t', rest, hlookup | hdecode | hdecodeF⟩ := mem_of_parseLine h hl
  · obtain ⟨b, rfl⟩ := parseLookup_eq_some hlookup
    rfl
  · obtain ⟨inp, text, rfl, hquoted⟩ := parseDecode_eq_some hdecode
    exact (wf_decode_iff inp).mpr (readsNoNul_quotedString .plain text inp rest hquoted)
  · obtain ⟨seq, rawid, dlcByte, payload, rfl⟩ := parseDecodeF_eq_some hdecodeF
    exact wf_expandLine_decodeF cfg seq rawid dlcByte payload

/-- Settles O11. -/
theorem hexTextSpellsItsBytes : Obligations.HexTextSpellsItsBytes := by
  unfold Obligations.HexTextSpellsItsBytes
  exact pairBytes_hexText

/-- Settles O22. -/
theorem decodeFIsWellFormed : Obligations.DecodeFIsWellFormed := by
  unfold Obligations.DecodeFIsWellFormed
  exact fun cfg seq rawid dlcByte payload =>
    ⟨wf_expandLine_decodeF cfg seq rawid dlcByte payload, length_frameText cfg seq rawid dlcByte payload⟩

/-- Settles O36: a legal flag shares no bit with the moved identifier or with the other flag. -/
theorem arbitrationIdLayout : Obligations.ArbitrationIdLayout := by
  unfold Obligations.ArbitrationIdLayout
  intro cfg rawid h
  obtain ⟨hid, heff, hrtr⟩ := arbitrationId_and rawid h
  obtain ⟨heffLegal, hrtrLegal, -⟩ := h
  refine ⟨fun hide => ?_, fun hide => ?_, ?_, ?_, fun heffDefault hrtrDefault => ?_⟩
  · simpa only [idShift, ideFlag, hide, if_true] using hid
  · simpa only [idShift, ideFlag, hide, Bool.false_eq_true, if_false] using hid
  · simp [heff, ideFlag, (singleFlag_spec heffLegal).2]
  · simp [hrtr, rtrBits, rtrFlag, (singleFlag_spec hrtrLegal).2]
  · have hshift : (rawid >>> idShift rawid).getLsbD 29 = false := by
      rw [BitVec.getLsbD_ushiftRight]
      exact BitVec.getLsbD_of_ge _ _ (by have := three_le_idShift rawid; omega)
    rw [arbitrationId_eq, rtrBits, heffDefault, hrtrDefault, BitVec.getLsbD_or, BitVec.getLsbD_or, hshift]
    split_ifs <;> rfl

/-- Settles O4. -/
theorem reservedCommandsRejected : Obligations.ReservedCommandsRejected := by
  unfold Obligations.ReservedCommandsRejected
  exact fun c bs hdec hlook => decode_of_reserved hdec hlook bs

/-- Settles O3: the two requests are read by running the decoder, and 0x07 is reserved. -/
theorem specEncodingsDecode : Obligations.SpecEncodingsDecode := by
  unfold Obligations.SpecEncodingsDecode
  exact ⟨rfl, rfl, decode_of_reserved (by decide) (by decide) []⟩

end Sys2Proof.Machine

/-! SUPPORT. The statements of spec/40_hex_lut.md: the words of the look-up table, the bytes that are hex digits, and
the pair function. -/

namespace Sys2Proof.Machine

/-! ## The table's words -/

/-- The table's subtraction and addition do not wrap where they stay in a nibble: the word is the digit's value, `ERR`
clear (R76, R100). -/
theorem lutDigit_eq_ofNat {b base plus : Byte} (hbase : base.toNat ≤ b.toNat)
    (hval : b.toNat - base.toNat + plus.toNat < 16) :
    lutDigit b base plus = BitVec.ofNat 5 (b.toNat - base.toNat + plus.toNat) := by
  have hsub : (b - base).toNat = b.toNat - base.toNat := BitVec.toNat_sub_of_le (BitVec.le_def.mpr hbase)
  apply BitVec.eq_of_toNat_eq
  simp only [lutDigit, BitVec.toNat_append, BitVec.extractLsb'_toNat, BitVec.toNat_add, hsub, BitVec.toNat_ofNat,
    Nat.zero_mod, Nat.zero_shiftLeft, Nat.zero_or, Nat.shiftRight_zero]
  omega

/-- The word of a byte, by the three ranges of digits (R100). -/
theorem lut_eq_ofNat (b : Byte) : lut b =
    if 0x30 ≤ b.toNat ∧ b.toNat ≤ 0x39 then BitVec.ofNat 5 (b.toNat - 0x30)
    else if 0x41 ≤ b.toNat ∧ b.toNat ≤ 0x46 then BitVec.ofNat 5 (b.toNat - 0x41 + 10)
    else if 0x61 ≤ b.toNat ∧ b.toNat ≤ 0x66 then BitVec.ofNat 5 (b.toNat - 0x61 + 10)
    else 0b10000#5 := by
  rw [lut]
  refine ite_congr rfl (fun hdec => ?_) (fun _ => ite_congr rfl (fun hupper => ?_) (fun _ =>
    ite_congr rfl (fun hlower => ?_) (fun _ => rfl)))
  · exact lutDigit_eq_ofNat hdec.1 (show b.toNat - 0x30 + 0 < 16 by omega)
  · exact lutDigit_eq_ofNat hupper.1 (show b.toNat - 0x41 + 10 < 16 by omega)
  · exact lutDigit_eq_ofNat hlower.1 (show b.toNat - 0x61 + 10 < 16 by omega)

/-- `ERR` is clear in the word of a digit's value (R76). -/
theorem lutErr_ofNat {n : Nat} (h : n < 16) : lutErr (BitVec.ofNat 5 n) = false := by
  rw [lutErr, BitVec.getLsbD_ofNat, Nat.testBit_lt_two_pow h, Bool.and_false]

/-- `ERR` is clear exactly in the words of the hex digits (R100, R102). -/
theorem lutErr_lut_eq_false_iff (b : Byte) : lutErr (lut b) = false ↔
    (0x30 ≤ b.toNat ∧ b.toNat ≤ 0x39) ∨ (0x41 ≤ b.toNat ∧ b.toNat ≤ 0x46) ∨
      (0x61 ≤ b.toNat ∧ b.toNat ≤ 0x66) := by
  rw [lut_eq_ofNat]
  split_ifs with hdec hupper hlower
  · exact iff_of_true (lutErr_ofNat (by omega)) (.inl hdec)
  · exact iff_of_true (lutErr_ofNat (by omega)) (.inr (.inl hupper))
  · exact iff_of_true (lutErr_ofNat (by omega)) (.inr (.inr hlower))
  · exact iff_of_false (by decide) (by simp only [hdec, hupper, hlower, or_self, not_false_eq_true])

/-! ## The bytes that are hex digits -/

/-- `0` to `9`, `A` to `F` and `a` to `f` in ASCII, the entries of the table whose `ERR` is clear (R104). -/
def hexDigitBytes : List Byte :=
  (List.range' 0x30 10 ++ List.range' 0x41 6 ++ List.range' 0x61 6).map (BitVec.ofNat 8)

theorem filter_not_lutErr :
    ((List.range 256).map (BitVec.ofNat 8)).filter (fun b => !lutErr (lut b)) = hexDigitBytes := by
  decide

/-- A nibble below 10 has one spelling, another has an upper-case and a lower-case one (R104). -/
theorem length_spellings (n : Nibble) :
    (hexDigitBytes.filter (fun b => lutNib (lut b) == n)).length = if n.toNat < 10 then 1 else 2 := by
  revert n
  decide

/-! ## The pair function -/

/-- A nibble moved up by four, with another below it, is the byte of the two (R103). -/
theorem shiftLeft_or_eq_append (h l : Nibble) : (h.setWidth 8 <<< 4 ||| l.setWidth 8) = h ++ l := by
  rw [BitVec.append_def, BitVec.setWidth'_eq, BitVec.shiftLeftZeroExtend_eq]

/-- Two digits pair up to the byte that has their values side by side, the first one high (R103). -/
theorem hexpair_of_digits {ch cl : Byte} (hh : lutErr (lut ch) = false) (hl : lutErr (lut cl) = false) :
    hexpair ch cl = some (lutNib (lut ch) ++ lutNib (lut cl)) := by
  simp [hexpair, hh, hl, shiftLeft_or_eq_append]

theorem toNat_append_nibbles (h l : Nibble) : (h ++ l : Byte).toNat = 16 * h.toNat + l.toNat := by
  rw [BitVec.toNat_append, ← Nat.shiftLeft_add_eq_or_of_lt l.isLt, Nat.shiftLeft_eq, Nat.mul_comm]

/-- Every byte is the pair of its two nibbles' spellings (R88, R104). -/
theorem exists_hexpair_eq_some (v : Byte) : ∃ ch cl, hexpair ch cl = some v :=
  ⟨hexDigit (v.extractLsb' 4 4), hexDigit (v.extractLsb' 0 4), by
    rw [hexpair_hexDigit, BitVec.extractLsb'_append_extractLsb']⟩

/-! ## The statements -/

/-- Settles O7. -/
theorem lutContents : Obligations.LutContents := by
  unfold Obligations.LutContents
  exact lut_eq_ofNat

/-- Settles O8: the spellings of a nibble are counted among the 22 hex digits. -/
theorem lutCounts : Obligations.LutCounts := by
  unfold Obligations.LutCounts
  refine ⟨?_, fun n => ?_, exists_hexpair_eq_some⟩
  · rw [filter_not_lutErr]
    rfl
  · simp only [Bool.and_comm (!lutErr _), ← List.filter_filter, filter_not_lutErr, length_spellings]

/-- Settles O9. -/
theorem lookupCompletes : Obligations.LookupCompletes := by
  unfold Obligations.LookupCompletes
  exact fun b s => ⟨rfl, exec_lookup b s, lutErr_lut_eq_false_iff b⟩

/-- Settles O10: the two nibbles side by side are the number whose first digit counts sixteens. -/
theorem hexpairCombines : Obligations.HexpairCombines := by
  unfold Obligations.HexpairCombines
  exact fun ch cl => ⟨(hexpair_eq_none_iff ch cl).mpr, fun hh hl =>
    ⟨_, hexpair_of_digits hh hl, toNat_append_nibbles _ _⟩⟩

end Sys2Proof.Machine

/-! SUPPORT. The statements of spec/41_frame_decode.md: which characters a DECODE looks up, what its stages extract from
the bytes they spell, and which failure its checks then report. -/

namespace Sys2Proof.Machine

open Sys2Proof.Safety

/-! ## The characters a DECODE looks up -/

/-- DECODE knows of a string its length and what the hex-pair loop makes of its characters before the last one. -/
theorem decodeStages_congr_input {inp inp' : List Byte} (cfg : Params) (w : Working) (hlen : inp.length = inp'.length)
    (hloop : hexLoop inp.dropLast 0 w.staged = hexLoop inp'.dropLast 0 w.staged) :
    decodeStages cfg inp w = decodeStages cfg inp' w := by
  have hhex : hexStage inp w = hexStage inp' w := by rw [hexStage, hloop, hlen, ← hexStage]
  simp only [decodeStages, lengthStage, hlen]
  cases lengthGate inp'.length with
  | some c => rfl
  | none => simp only [stageThen_none, hhex]

/-- So two strings alike in both give the same DECODE, in every state. -/
theorem exec_decode_congr_input {inp inp' : List Byte} (s : State) (hlen : inp.length = inp'.length)
    (hloop : ∀ st, hexLoop inp.dropLast 0 st = hexLoop inp'.dropLast 0 st) :
    exec (.decode inp) s = exec (.decode inp') s := by
  rw [exec_decode, exec_decode, execDecode_eq, execDecode_eq, decodeStages_congr_input s.cfg _ hlen (hloop _)]

/-- The hex-pair loop looks up no character that has no partner (R122). -/
theorem hexLoop_append_unpaired : ∀ {cs : List Byte} (x : Byte) (i : Nat) (st : Staged), cs.length % 2 = 0 →
    hexLoop (cs ++ [x]) i st = hexLoop cs i st
  | [], _, _, _, _ => rfl
  | [_], _, _, _, heven => by cases heven
  | ch :: cl :: rest, x, i, st, heven => by
    have hrest : rest.length % 2 = 0 := by simp only [List.length_cons] at heven; omega
    simp only [List.cons_append, hexLoop]
    cases hexpair ch cl with
    | none => rfl
    | some v => exact hexLoop_append_unpaired x (i + 1) _ hrest

/-! ## What the stages extract -/

/-- Offsets below the number of spelled bytes hold those bytes, whatever was drawn (R124). -/
theorem stagedByte_eq_of_lt {bs : List Byte} {k : Nat} (hk : k < bs.length) (d d' : Staged) :
    stagedByte bs d k = stagedByte bs d' k := by
  rw [stagedByte, stagedByte, List.getElem?_eq_getElem hk, Option.getD_some, Option.getD_some]

/-- More spelled bytes stand behind the ones before them. -/
theorem stagedByte_append_of_lt {bs : List Byte} {k : Nat} (hk : k < bs.length) (extra : List Byte) (d : Staged) :
    stagedByte (bs ++ extra) d k = stagedByte bs d k := by
  rw [stagedByte, List.getElem?_append_left hk, stagedByte]

/-- A string the length gate lets pass spells 7 to 15 bytes, so the header and one byte more (R122, R124). -/
theorem spelledBytes_length_bounds {inp bs : List Byte} (hl : LengthOk inp) (hs : spelledBytes inp = some bs) :
    7 ≤ bs.length ∧ bs.length ≤ 15 := by
  obtain ⟨hmin, hmax⟩ := hl
  rw [spelledBytes_length hs]
  omega

/-- The checksum writes none of the registers that have been extracted. -/
theorem Extracted.checksumStage {inp bs : List Byte} {w e : Working} (he : Extracted inp bs w e) (cfg : Params) :
    Extracted inp bs w (checksumStage cfg e).1 :=
  ⟨he.staged, he.n, he.seq, he.rawid, he.dlc⟩

/-- The working registers hold what was extracted at the end of the stages too, whichever of them ended the DECODE
(log 7). -/
theorem decodeStages_extracted {inp bs : List Byte} (cfg : Params) (w : Working) (hl : LengthOk inp)
    (hs : spelledBytes inp = some bs) : Extracted inp bs w (decodeStages cfg inp w).1 := by
  obtain ⟨e, he, hstages⟩ := decodeStages_spec cfg w hl hs
  rw [hstages]
  split
  · exact he
  · split
    · exact he
    · exact he.checksumStage cfg

/-! ## The failure that is reported -/

/-- The failure that the checks report of a decoded frame, in their order (R130, R131, R155). -/
def frameFailure (cfg : Params) (bs : List Byte) (d : Staged) : Option FailCode :=
  if ¬ IdLegal cfg (frameRawId bs d) then some .illegalCanId
  else if frameDlc bs d > 8 then some .illegalDlc
  else if frameChecksum cfg bs d ≠ storedChecksum bs d then some .checksumError
  else none

/-- It is the one the stages end with. -/
theorem decodeStages_snd_of_spelled {inp bs : List Byte} (cfg : Params) (w : Working) (hl : LengthOk inp)
    (hs : spelledBytes inp = some bs) : (decodeStages cfg inp w).2 = frameFailure cfg bs w.staged := by
  obtain ⟨e, -, hstages⟩ := decodeStages_spec cfg w hl hs
  rw [hstages, frameFailure]
  split_ifs <;> rfl

/-- The checks read no byte after the checksum byte (R133). -/
theorem frameFailure_congr {bs bs' : List Byte} {d d' : Staged}
    (h : ∀ k, k < 7 + frameDlc bs d → stagedByte bs d k = stagedByte bs' d' k) (cfg : Params) :
    frameFailure cfg bs d = frameFailure cfg bs' d' := by
  rw [frameFailure, frameRawId_congr h (by omega), frameChecksum_congr h cfg (by omega),
    storedChecksum_congr h (by omega), frameDlc_congr h (by omega), frameFailure]

/-- Where the checksum byte is drawn, the checks that come before it and the sum do not depend on that draw (R134). -/
theorem frameFailure_of_drawn_checksum {cfg : Params} {bs : List Byte} {d : Staged}
    (hid : IdLegal cfg (frameRawId bs d)) (hdlc : frameDlc bs d ≤ 8) (hshort : bs.length < 7 + frameDlc bs d)
    (v : Byte) : frameFailure cfg bs (stagedWrite d (6 + frameDlc bs d) v) =
      if frameChecksum cfg bs d ≠ v then some .checksumError else none := by
  have hbelow (k : Nat) (hk : k < 6 + frameDlc bs d) :
      stagedByte bs d k = stagedByte bs (stagedWrite d (6 + frameDlc bs d) v) k := by
    rw [stagedByte, stagedByte, stagedRead_stagedWrite_ne (by omega) (by omega) (by omega)]
  have hstored : storedChecksum bs (stagedWrite d (6 + frameDlc bs d) v) = v := by
    rw [storedChecksum, ← frameDlc_congr hbelow (by omega), stagedByte, List.getElem?_eq_none (by omega),
      Option.getD_none, stagedRead_stagedWrite_self]
  rw [frameFailure, ← frameRawId_congr hbelow (by omega), ← frameDlc_congr hbelow (by omega),
    ← frameChecksum_congr hbelow cfg le_rfl, hstored, if_neg (not_not.mpr hid), if_neg (by omega)]

/-! ## The outcome in STATUS -/

/-- The `STATUS` of an outcome (R75). -/
def statusOfOutcome (o : Option FailCode) : BitVec 3 := o.elim statusOk statusOf

@[simp] theorem finishDecode_status (r : StageResult) (s : State) :
    (finishDecode r s).status = some (statusOfOutcome r.2) := by
  obtain ⟨w, _ | c⟩ := r <;> rfl

/-- The stages end as the list of R207 says. -/
theorem statusOfOutcome_decodeStages (cfg : Params) (inp : List Byte) (w : Working) :
    statusOfOutcome (decodeStages cfg inp w).2 = expectedStatus cfg inp w.staged := by
  rw [expectedStatus]
  split_ifs with hlong hshort
  · have hgate : lengthGate inp.length = some .tooLong := if_pos hlong
    rw [decodeStages_gate cfg w hgate]
    rfl
  · have hgate : lengthGate inp.length = some .tooShort := by rw [lengthGate, if_neg hlong, if_pos hshort]
    rw [decodeStages_gate cfg w hgate]
    rfl
  · have hl : LengthOk inp := ⟨by omega, by omega⟩
    split
    · next hs =>
      obtain ⟨w', hinvalid⟩ := decodeStages_invalidHex cfg w hl hs
      rw [hinvalid]
      rfl
    · next bs hs =>
      rw [decodeStages_snd_of_spelled cfg w hl hs, frameFailure]
      split_ifs <;> rfl

/-! ## The identifier -/

/-- A byte below other bits is their number times 256 and the byte. -/
theorem toNat_append_byte {n : Nat} (x : BitVec n) (b : Byte) : (x ++ b).toNat = 256 * x.toNat + b.toNat := by
  rw [BitVec.toNat_append, ← Nat.shiftLeft_add_eq_or_of_lt b.isLt, Nat.shiftLeft_eq, Nat.mul_comm]

/-- Four bytes side by side are the sum of the four lanes (R127). -/
theorem append_eq_sum_of_lanes (a b c d : Byte) : (d ++ c ++ b ++ a : BitVec 32) =
    a.setWidth 32 + (b.setWidth 32 <<< 8) + (c.setWidth 32 <<< 16) + (d.setWidth 32 <<< 24) := by
  apply BitVec.eq_of_toNat_eq
  simp only [toNat_append_byte, BitVec.toNat_add, BitVec.toNat_shiftLeft, BitVec.toNat_setWidth, Nat.shiftLeft_eq]
  omega

/-- Two words share a bit exactly when their AND is not 0. -/
theorem and_ne_zero_iff (v m : Word32) : v &&& m ≠ 0#32 ↔ ∃ k, v.getLsbD k = true ∧ m.getLsbD k = true := by
  constructor
  · intro hne
    by_contra hshare
    refine hne (BitVec.eq_of_getLsbD_eq fun k _ => ?_)
    rw [BitVec.getLsbD_and, BitVec.getLsbD_zero, Bool.eq_false_iff, Ne, Bool.and_eq_true]
    exact fun hk => hshare ⟨k, hk⟩
  · rintro ⟨k, hv, hm⟩ hzero
    have hbit : (v &&& m).getLsbD k = true := by rw [BitVec.getLsbD_and, hv, hm, Bool.and_self]
    rw [hzero, BitVec.getLsbD_zero] at hbit
    cases hbit

/-- The default identifier mask has bits 16..2 (R7, R130). -/
theorem getLsbD_defaultMask (k : Nat) : (0x0001FFFC#32).getLsbD k = true ↔ 2 ≤ k ∧ k ≤ 16 := by
  by_cases hk : k < 32
  · revert k
    decide
  · rw [BitVec.getLsbD_of_ge _ _ (by omega)]
    exact iff_of_false Bool.false_ne_true (by omega)

/-! ## The statements -/

/-- Settles O18. -/
theorem firstCauseWins : Obligations.FirstCauseWins := by
  unfold Obligations.FirstCauseWins
  intro inp s
  refine ⟨_, execDecode_eq inp s, ?_⟩
  rw [finishDecode_status, statusOfOutcome_decodeStages]

/-- Settles O23: the stages after the loop keep what it wrote. -/
theorem stagedBufferAfterLoop : Obligations.StagedBufferAfterLoop := by
  unfold Obligations.StagedBufferAfterLoop
  intro inp bs s hl hs
  have he := decodeStages_extracted s.cfg (Working.drawn s.draws) hl hs
  have hlen := spelledBytes_length hs
  obtain ⟨hmin, hmax⟩ := spelledBytes_length_bounds hl hs
  refine ⟨_, execDecode_eq inp s, ?_⟩
  rw [finishDecode_work]
  exact ⟨he.staged, he.n, hlen, by rw [he.n]; omega, by rw [he.n]; omega⟩

/-- Settles O24: the fields are read from offsets 0..5, and at least seven bytes are spelled. -/
theorem headerFieldsAreNeverDrawn : Obligations.HeaderFieldsAreNeverDrawn := by
  unfold Obligations.HeaderFieldsAreNeverDrawn
  intro cfg inp bs w w' hl hs
  obtain ⟨hmin, -⟩ := spelledBytes_length_bounds hl hs
  have he := decodeStages_extracted cfg w hl hs
  have he' := decodeStages_extracted cfg w' hl hs
  have hsame (k : Nat) (hk : k < 7) : stagedByte bs w.staged k = stagedByte bs w'.staged k :=
    stagedByte_eq_of_lt (by omega) _ _
  refine ⟨?_, ?_, ?_⟩
  · rw [he.seq, he'.seq, hsame 0 (by omega)]
  · rw [he.rawid, he'.rawid, frameRawId_congr hsame (by omega)]
  · apply BitVec.eq_of_toNat_eq
    rw [he.dlc, he'.dlc, frameDlc_congr hsame (by omega)]

/-- Settles O25: all three are staged bytes 4, 3, 2, 1 side by side. -/
theorem rawIdentifierIsLittleEndian : Obligations.RawIdentifierIsLittleEndian := by
  unfold Obligations.RawIdentifierIsLittleEndian
  intro st
  refine ⟨rfl, ?_, ?_⟩
  · apply BitVec.eq_of_toNat_eq
    simp only [rawIdentifier_eq_append, memRead, toNat_append_byte, BitVec.toNat_ofNat, Nat.zero_mod, Nat.mul_zero,
      Nat.zero_add, Nat.reduceAdd]
  · rw [rawIdentifier_eq_append, append_eq_sum_of_lanes]

/-- Settles O27: the character is the last one before the terminator and has no partner. -/
theorem unpairedCharacterIsIgnored : Obligations.UnpairedCharacterIsIgnored := by
  unfold Obligations.UnpairedCharacterIsIgnored
  intro body x y z s heven
  have hdrop (c : Byte) : (body ++ [c, z]).dropLast = body ++ [c] := by simp
  apply exec_decode_congr_input
  · simp
  · intro st
    rw [hdrop, hdrop, hexLoop_append_unpaired x 0 st heven, hexLoop_append_unpaired y 0 st heven]

/-- Settles O28: the two strings agree on the bytes that the checks read. -/
theorem extraPairsAreNotChecked : Obligations.ExtraPairsAreNotChecked := by
  unfold Obligations.ExtraPairsAreNotChecked
  intro cfg inp inp' bs extra extra' w w' hl hl' hs hs' hlen
  have hdlc : frameDlc (bs ++ extra) w.staged = frameDlc bs w.staged :=
    frameDlc_congr (n := 6) (fun k hk => stagedByte_append_of_lt (by omega) extra _) le_rfl
  rw [decodeStages_snd_of_spelled cfg w hl hs, decodeStages_snd_of_spelled cfg w' hl' hs']
  apply frameFailure_congr
  intro k hk
  rw [hdlc, ← hlen] at hk
  calc stagedByte (bs ++ extra) w.staged k
      = stagedByte bs w.staged k := stagedByte_append_of_lt hk extra _
    _ = stagedByte bs w'.staged k := stagedByte_eq_of_lt hk _ _
    _ = stagedByte (bs ++ extra') w'.staged k := (stagedByte_append_of_lt hk extra' _).symm

/-- Settles O29: the drawn checksum byte is the folded sum, or another byte. -/
theorem shortFrameAdmitsBothOutcomes : Obligations.ShortFrameAdmitsBothOutcomes := by
  unfold Obligations.ShortFrameAdmitsBothOutcomes
  intro cfg inp bs d hl hs hid hdlc hshort
  have houtcome (v : Byte) : ∃ w, (decodeStages cfg inp w).2 =
      if frameChecksum cfg bs d ≠ v then some .checksumError else none :=
    ⟨{ Working.drawn 0 with staged := stagedWrite d (6 + frameDlc bs d) v }, by
      rw [decodeStages_snd_of_spelled cfg _ hl hs, frameFailure_of_drawn_checksum hid hdlc hshort]⟩
  constructor
  · simpa using houtcome (frameChecksum cfg bs d)
  · simpa using houtcome (frameChecksum cfg bs d + 1#8)

/-- Settles O31: the default mask has bits 16..2, and bit 2 is clear where the check fails. -/
theorem identifierCheckBits : Obligations.IdentifierCheckBits := by
  unfold Obligations.IdentifierCheckBits
  intro cfg rawid
  have hcheck : idIllegal cfg rawid = true ↔ rawid.getLsbD 2 = false ∧ rawid &&& cfg.idCheckMask ≠ 0#32 := by
    rw [idIllegal_iff, not_or, Bool.not_eq_true]
  refine ⟨hcheck, fun hmask => ?_⟩
  rw [hcheck, hmask, and_ne_zero_iff]
  refine and_congr_right fun hide => exists_congr fun k => ?_
  rw [getLsbD_defaultMask]
  constructor
  · rintro ⟨hset, hmin, hmax⟩
    have hne : k ≠ 2 := by rintro rfl; rw [hide] at hset; cases hset
    exact ⟨by omega, hmax, hset⟩
  · rintro ⟨hmin, hmax, hset⟩
    exact ⟨hset, by omega, hmax⟩

/-- Settles O26: the last byte is not among the characters the loop is given. -/
theorem terminatorIsNeverInspected : Obligations.TerminatorIsNeverInspected := by
  unfold Obligations.TerminatorIsNeverInspected
  intro body a b s
  apply exec_decode_congr_input
  · simp
  · intro st
    rw [List.dropLast_concat, List.dropLast_concat]

end Sys2Proof.Machine

/-! SUPPORT. The statements of spec/42_checksum.md: the accumulator as a sum of numbers, the fold as additions of
numbers, and the residue modulo 255 that each of them keeps. -/

namespace Sys2Proof.Machine

/-! ## The accumulator -/

/-- Each addition of R152 is of one byte's number, modulo 2^32. -/
theorem toNat_sumStaged (seed : Word32) (st : Staged) (n : Nat) :
    (sumStaged seed st n).toNat =
      (seed.toNat + ((List.range n).map fun k => (stagedRead st k).toNat).sum) % 2 ^ 32 := by
  induction n with
  | zero => rw [sumStaged_zero, List.range_zero, List.map_nil, List.sum_nil, Nat.add_zero, Nat.mod_eq_of_lt seed.isLt]
  | succ n ih =>
    have hbyte : (stagedRead st n).toNat < 2 ^ 32 := (stagedRead st n).isLt.trans (by decide)
    rw [sumStaged_succ, BitVec.toNat_add, ih, BitVec.toNat_setWidth, Nat.mod_eq_of_lt hbyte, Nat.mod_add_mod,
      List.range_succ, List.map_append, List.sum_append, List.map_singleton, List.sum_singleton, Nat.add_assoc]

theorem sum_staged_le (st : Staged) (n : Nat) :
    ((List.range n).map fun k => (stagedRead st k).toNat).sum ≤ n * 255 := by
  have hbyte : ∀ v ∈ (List.range n).map fun k => (stagedRead st k).toNat, v ≤ 255 := by
    simp only [List.mem_map]
    rintro _ ⟨k, -, rfl⟩
    exact Nat.le_of_lt_succ (stagedRead st k).isLt
  simpa using List.sum_le_card_nsmul _ 255 hbyte

/-! ## The steps of the fold -/

/-- Two parts of at most 16 bits each never carry out of 32 bits. -/
theorem toNat_add_parts {k : Nat} (hk : k ≤ 16) (low high : BitVec k) :
    (low.setWidth 32 + high.setWidth 32).toNat = low.toNat + high.toNat := by
  have hpart : 2 ^ k ≤ 2 ^ 16 := Nat.pow_le_pow_right (by decide) hk
  have hlow := low.isLt
  have hhigh := high.isLt
  rw [BitVec.toNat_add, BitVec.toNat_setWidth, BitVec.toNat_setWidth, Nat.mod_eq_of_lt (a := low.toNat) (by omega),
    Nat.mod_eq_of_lt (a := high.toNat) (by omega), Nat.mod_eq_of_lt (by omega)]

theorem toNat_foldHalves (a : Word32) : (foldHalves a).toNat = a.toNat % 65536 + a.toNat / 65536 := by
  have hhigh : a.toNat / 65536 < 65536 := Nat.div_lt_of_lt_mul a.isLt
  rw [foldHalves, toNat_add_parts le_rfl, BitVec.extractLsb'_toNat, BitVec.extractLsb'_toNat, Nat.shiftRight_zero,
    Nat.shiftRight_eq_div_pow, Nat.mod_eq_of_lt hhigh]

/-- An 8-bit step reads bits 15..0 only, so it adds low part and high part where there is nothing above them. -/
theorem toNat_foldBytes {a : Word32} (ha : a.toNat < 65536) :
    (foldBytes a).toNat = a.toNat % 256 + a.toNat / 256 := by
  have hhigh : a.toNat / 256 < 256 := Nat.div_lt_of_lt_mul ha
  rw [foldBytes, toNat_add_parts (by decide), BitVec.extractLsb'_toNat, BitVec.extractLsb'_toNat, Nat.shiftRight_zero,
    Nat.shiftRight_eq_div_pow, Nat.mod_eq_of_lt hhigh]

/-- R153 as numbers: no step wraps and the last one drops no bit. -/
theorem toNat_fold {a : Word32} {t1 t2 t3 t4 : Nat}
    (h1 : t1 = a.toNat % 65536 + a.toNat / 65536) (h2 : t2 = t1 % 65536 + t1 / 65536)
    (h3 : t3 = t2 % 256 + t2 / 256) (h4 : t4 = t3 % 256 + t3 / 256) :
    (fold a).toNat = t4 ∧ t1 ≤ 0x1FFFE ∧ t2 ≤ 0xFFFF ∧ t3 ≤ 0x1FE ∧ t4 ≤ 0xFF := by
  have ha := a.isLt
  have b1 : t1 ≤ 0x1FFFE := by omega
  have b2 : t2 ≤ 0xFFFF := by omega
  have b3 : t3 ≤ 0x1FE := by omega
  have b4 : t4 ≤ 0xFF := by omega
  have e2 : (foldHalves (foldHalves a)).toNat = t2 := by rw [toNat_foldHalves, toNat_foldHalves, ← h1, ← h2]
  have e3 : (foldBytes (foldHalves (foldHalves a))).toNat = t3 := by rw [toNat_foldBytes (by omega), e2, h3]
  have e4 : (foldBytes (foldBytes (foldHalves (foldHalves a)))).toNat = t4 := by
    rw [toNat_foldBytes (by omega), e3, h4]
  refine ⟨?_, b1, b2, b3, b4⟩
  rw [fold, BitVec.extractLsb'_toNat, e4, Nat.shiftRight_zero, Nat.mod_eq_of_lt (by omega)]

/-! ## What the fold keeps -/

/-- Adding the high part to the low part keeps the residue modulo `k` where the base is 1 modulo `k` (R154). -/
theorem low_add_high_modEq {k base : Nat} (hbase : base ≡ 1 [MOD k]) (n : Nat) :
    n % base + n / base ≡ n [MOD k] :=
  calc n % base + n / base
      = n % base + 1 * (n / base) := by rw [Nat.one_mul]
    _ ≡ n % base + base * (n / base) [MOD k] := (hbase.symm.mul_right _).add_left _
    _ = n := Nat.mod_add_div n base

theorem low_add_high_eq_zero_iff (base n : Nat) : n % base + n / base = 0 ↔ n = 0 := by
  constructor
  · intro h
    obtain ⟨hlow, hhigh⟩ := Nat.add_eq_zero_iff.mp h
    rw [← Nat.mod_add_div n base, hlow, hhigh, Nat.mul_zero]
  · rintro rfl
    simp

/-- `fold(a) ≡ a (mod 255)` (R154): 2^16 and 2^8 are 1 modulo 255. -/
theorem fold_modEq (a : Word32) : (fold a).toNat ≡ a.toNat [MOD 255] := by
  have h16 : 65536 ≡ 1 [MOD 255] := by decide
  have h8 : 256 ≡ 1 [MOD 255] := by decide
  rw [(toNat_fold rfl rfl rfl rfl).1]
  exact (low_add_high_modEq h8 _).trans <| (low_add_high_modEq h8 _).trans <|
    (low_add_high_modEq h16 _).trans (low_add_high_modEq h16 _)

/-- `fold(a) = 0` exactly when `a = 0` (R154). -/
theorem toNat_fold_eq_zero_iff (a : Word32) : (fold a).toNat = 0 ↔ a = 0#32 := by
  rw [(toNat_fold rfl rfl rfl rfl).1, low_add_high_eq_zero_iff, low_add_high_eq_zero_iff, low_add_high_eq_zero_iff,
    low_add_high_eq_zero_iff, BitVec.toNat_eq, BitVec.toNat_ofNat, Nat.zero_mod]

/-- A byte's number is told by its residue modulo 255 and whether it is 0. -/
theorem toNat_fold_eq (a : Word32) :
    (fold a).toNat = if a = 0#32 then 0 else if a.toNat % 255 = 0 then 255 else a.toNat % 255 := by
  have hmod : (fold a).toNat % 255 = a.toNat % 255 := fold_modEq a
  have hzero := toNat_fold_eq_zero_iff a
  have hbyte := (fold a).isLt
  split
  case isTrue ha => exact hzero.mpr ha
  case isFalse ha =>
    have hne : (fold a).toNat ≠ 0 := mt hzero.mp ha
    split <;> omega

/-! ## The statements -/

/-- Settles O32, by induction on the count; 14 bytes add at most 0xDF2. -/
theorem accumulatorIsModularSum : Obligations.AccumulatorIsModularSum := by
  unfold Obligations.AccumulatorIsModularSum
  intro seed st n
  refine ⟨toNat_sumStaged seed st n, fun hn hseed => ?_⟩
  have hsum := sum_staged_le st n
  rw [toNat_sumStaged, Nat.mod_eq_of_lt (by omega)]

/-- Settles O33: each step of the fold adds low part and high part as numbers. -/
theorem foldIsFourAdditions : Obligations.FoldIsFourAdditions := by
  unfold Obligations.FoldIsFourAdditions
  intro a t1 t2 t3 t4 h1 h2 h3 h4
  exact toNat_fold h1 h2 h3 h4

/-- Settles O34: the fold keeps the residue modulo 255 and is 0 at 0 only. -/
theorem foldIsResidueModulo255 : Obligations.FoldIsResidueModulo255 := by
  unfold Obligations.FoldIsResidueModulo255
  exact toNat_fold_eq

/-- Settles O35: a fold tells the residue modulo 255 and whether the sum is 0, and nothing else. -/
theorem undetectedChanges : Obligations.UndetectedChanges := by
  unfold Obligations.UndetectedChanges
  intro a b
  constructor
  · intro h
    constructor
    · exact (fold_modEq a).symm.trans (h ▸ fold_modEq b)
    · rw [← toNat_fold_eq_zero_iff, ← toNat_fold_eq_zero_iff, h]
  · rintro ⟨hmod, hzero⟩
    apply BitVec.eq_of_toNat_eq
    simp only [toNat_fold_eq, hmod, hzero]

end Sys2Proof.Machine

/-! SUPPORT. The statements of spec/43_repack.md: what a DECODE leaves of the registers it does not own, the frames it
commits told on the bytes its string spells, and DECODE.F read back by DECODE. -/

namespace Sys2Proof.Machine

open Sys2Proof.Safety

/-! ## What the end of a DECODE leaves -/

section
variable (r : StageResult) (s : State)

@[simp] theorem finishDecode_cfg : (finishDecode r s).cfg = s.cfg := by obtain ⟨w, _ | c⟩ := r <;> rfl
@[simp] theorem finishDecode_cmd : (finishDecode r s).cmd = s.cmd := by obtain ⟨w, _ | c⟩ := r <;> rfl
@[simp] theorem finishDecode_host : (finishDecode r s).host = s.host := by obtain ⟨w, _ | c⟩ := r <;> rfl

/-- Both frames are empty unless STATUS is OK (R176). -/
theorem finishDecode_frames_of_status_ne (h : (finishDecode r s).status ≠ some statusOk) :
    (finishDecode r s).df = none ∧ (finishDecode r s).sf = none := by
  obtain ⟨w, _ | c⟩ := r
  · exact absurd rfl h
  · exact ⟨rfl, rfl⟩

end

/-! ## The frames of decoded bytes -/

/-- The DecodedFrame that decoded bytes amount to (R174). -/
def spelledDecodedFrame (bs : List Byte) (d : Staged) : DecodedFrame where
  seq := stagedByte bs d 0
  id := frameRawId bs d
  dlc := BitVec.ofNat 8 (frameDlc bs d)
  data := framePayload bs d

/-- The SocketFrame that decoded bytes amount to (R170 to R173). -/
def spelledSocketFrame (cfg : Params) (bs : List Byte) (d : Staged) : SocketFrame where
  canid := arbitrationId cfg (frameRawId bs d)
  dlc := BitVec.ofNat 8 (frameDlc bs d)
  data := framePayload bs d

section
variable {inp bs : List Byte} {w e : Working} (he : Extracted inp bs w e)
include he

theorem Extracted.dlc_setWidth : e.dlc.setWidth 8 = BitVec.ofNat 8 (frameDlc bs w.staged) := by
  rw [← he.dlc, BitVec.ofNat_toNat]

theorem Extracted.payloadRegion_eq : payloadRegion e.staged = framePayload bs w.staged := by
  apply Vector.ext
  intro i hi
  rw [framePayload, Vector.getElem_ofFn, ← he.staged _ (by omega)]
  interval_cases i <;> rfl

theorem Extracted.decodedFrameOf_eq : decodedFrameOf e = spelledDecodedFrame bs w.staged := by
  rw [decodedFrameOf, he.seq, he.rawid, he.dlc_setWidth, he.payloadRegion_eq, spelledDecodedFrame]

theorem Extracted.socketFrameOf_eq (cfg : Params) : socketFrameOf cfg e = spelledSocketFrame cfg bs w.staged := by
  rw [socketFrameOf, he.rawid, he.dlc_setWidth, he.payloadRegion_eq, spelledSocketFrame]

end

/-- A string whose bytes pass every check is committed: STATUS takes OK and both frames are those of the bytes
(R175). -/
theorem exec_decode_of_valid {inp bs : List Byte} {s : State} (hl : LengthOk inp) (hs : spelledBytes inp = some bs)
    (hid : IdLegal s.cfg (frameRawId bs (drawnBytes s))) (hdlc : frameDlc bs (drawnBytes s) ≤ 8)
    (hck : frameChecksum s.cfg bs (drawnBytes s) = storedChecksum bs (drawnBytes s)) :
    ∃ w n, exec (.decode inp) s = .next
      { s with
        work := w
        draws := n
        status := some statusOk
        df := some (spelledDecodedFrame bs (drawnBytes s))
        sf := some (spelledSocketFrame s.cfg bs (drawnBytes s)) } := by
  obtain ⟨e, he, hstages⟩ := decodeStages_spec s.cfg (Working.drawn s.draws) hl hs
  rw [if_neg (not_not.mpr hid), if_neg (not_lt.mpr hdlc), if_neg (not_not.mpr hck)] at hstages
  refine ⟨(checksumStage s.cfg e).1, s.draws + 1, ?_⟩
  rw [exec_decode, execDecode_eq, hstages, finishDecode_none, commitDecode, startDecode_cfg,
    decodedFrameOf_checksumStage, socketFrameOf_checksumStage, he.decodedFrameOf_eq, he.socketFrameOf_eq]
  rfl

/-! ## The bytes of DECODE.F -/

/-- Spelled bytes are staged from offset 0, whatever is spelled behind them. -/
theorem map_stagedByte_range (bs extra : List Byte) (d : Staged) :
    (List.range bs.length).map (stagedByte (bs ++ extra) d) = bs := by
  apply List.ext_getElem
  · simp
  · intro k hk hk'
    rw [List.getElem_map, List.getElem_range, stagedByte_append_of_lt hk', stagedByte,
      List.getElem?_eq_getElem hk', Option.getD_some]

/-- A byte spelled behind other bytes is staged at the offset that is their number. -/
theorem stagedByte_concat_length (bs : List Byte) (b : Byte) (d : Staged) :
    stagedByte (bs ++ [b]) d bs.length = b := by
  rw [stagedByte, List.getElem?_concat_length, Option.getD_some]

/-- The four bytes of an identifier side by side are the identifier. -/
theorem extractLsb'_bytes_append (v : Word32) :
    (v.extractLsb' 24 8 ++ v.extractLsb' 16 8 ++ v.extractLsb' 8 8 ++ v.extractLsb' 0 8 : BitVec 32) = v := by
  apply BitVec.eq_of_toNat_eq
  simp only [toNat_append_byte, BitVec.extractLsb'_toNat, Nat.shiftRight_eq_div_pow]
  have := v.isLt
  omega

section
variable (cfg : Params) (seq : Byte) (rawid : Word32) (dlcByte : Byte) (payload : List Byte)

theorem length_frameBytes : (frameBytes seq rawid dlcByte payload).length = 6 + payload.length := by
  simp only [frameBytes, List.length_cons]
  omega

/-- The bytes DECODE.F spells: the frame and the fold of its sum (R88). -/
def checkedFrameBytes : List Byte :=
  frameBytes seq rawid dlcByte payload ++ [fold (sumBytes cfg.checksumSeed (frameBytes seq rawid dlcByte payload))]

theorem spelledBytes_frameText :
    spelledBytes (frameText cfg seq rawid dlcByte payload) =
      some (checkedFrameBytes cfg seq rawid dlcByte payload) := by
  rw [spelledBytes, frameText, List.dropLast_concat, pairBytes_hexText, checkedFrameBytes]

variable (d : Staged)

/-- The identifier lies little-endian in the text and is read so (R88, R127). -/
theorem frameRawId_checkedFrameBytes :
    frameRawId (checkedFrameBytes cfg seq rawid dlcByte payload) d = rawid :=
  extractLsb'_bytes_append rawid

theorem frameDlc_checkedFrameBytes :
    frameDlc (checkedFrameBytes cfg seq rawid dlcByte payload) d = dlcByte.toNat % 16 := rfl

/-- The DecodedFrame of these bytes has the operands in its fields (R178). -/
theorem spelledDecodedFrame_checkedFrameBytes :
    spelledDecodedFrame (checkedFrameBytes cfg seq rawid dlcByte payload) d = {
      seq := seq
      id := rawid
      dlc := BitVec.ofNat 8 (dlcByte.toNat % 16)
      data := framePayload (checkedFrameBytes cfg seq rawid dlcByte payload) d } := by
  rw [spelledDecodedFrame, frameRawId_checkedFrameBytes, frameDlc_checkedFrameBytes]
  rfl

/-- The payload region begins with the payload bytes (R88, R173). -/
theorem framePayload_checkedFrameBytes_get {i : Fin 8} (hi : i.val < payload.length) :
    (framePayload (checkedFrameBytes cfg seq rawid dlcByte payload) d).get i = payload[i.val] := by
  have hlt : 6 + i.val < (frameBytes seq rawid dlcByte payload).length := by
    rw [length_frameBytes]
    omega
  rw [Vector.get_eq_getElem, framePayload, Vector.getElem_ofFn, checkedFrameBytes, stagedByte_append_of_lt hlt,
    stagedByte, List.getElem?_eq_getElem hlt, Option.getD_some]
  simp [frameBytes, Nat.add_comm 6 i.val]

/-- Where the DLC counts the payload, the sum that DECODE checks is the one DECODE.F made, and the byte it is checked
against is the one DECODE.F put there (R88, R155). -/
theorem frameChecksum_checkedFrameBytes (hm : payload.length = dlcByte.toNat % 16) :
    frameChecksum cfg (checkedFrameBytes cfg seq rawid dlcByte payload) d =
      storedChecksum (checkedFrameBytes cfg seq rawid dlcByte payload) d := by
  have hoffset : 6 + frameDlc (checkedFrameBytes cfg seq rawid dlcByte payload) d =
      (frameBytes seq rawid dlcByte payload).length := by
    rw [frameDlc_checkedFrameBytes, length_frameBytes, hm]
  rw [frameChecksum, storedChecksum, hoffset, checkedFrameBytes, map_stagedByte_range, stagedByte_concat_length]

end

/-! ## The statements -/

/-- Settles O21: the string of DECODE.F spells its operands and a checksum that passes. -/
theorem decodeFRoundTrip : Obligations.DecodeFRoundTrip := by
  unfold Obligations.DecodeFRoundTrip
  intro s seq rawid dlcByte payload hid hdlc hm
  have hl : LengthOk (frameText s.cfg seq rawid dlcByte payload) := by
    rw [LengthOk, length_frameText]
    omega
  obtain ⟨w, n, hexec⟩ := exec_decode_of_valid (s := s) hl (spelledBytes_frameText s.cfg seq rawid dlcByte payload)
    (by rw [frameRawId_checkedFrameBytes]; exact hid) (by rw [frameDlc_checkedFrameBytes]; exact hdlc)
    (frameChecksum_checkedFrameBytes s.cfg seq rawid dlcByte payload _ hm)
  rw [spelledDecodedFrame_checkedFrameBytes] at hexec
  refine ⟨_, _, hexec, rfl, rfl, rfl, rfl, ?_, fun i hi => ?_⟩
  · rw [BitVec.toNat_ofNat]
    omega
  · rw [List.getElem?_eq_getElem hi]
    exact congrArg some (framePayload_checkedFrameBytes_get s.cfg seq rawid dlcByte payload _ hi).symm

/-- Settles O20: the identifier's two paths are those of `arbitrationId`. -/
theorem validFrameDecodes : Obligations.ValidFrameDecodes := by
  unfold Obligations.ValidFrameDecodes
  intro inp bs s hl hs hid hdlc hck
  exact exec_decode_of_valid hl hs hid hdlc hck

/-- Settles O19. -/
theorem failureEmptiesFrames : Obligations.FailureEmptiesFrames := by
  unfold Obligations.FailureEmptiesFrames
  intro inp s
  refine ⟨_, execDecode_eq inp s, finishDecode_frames_of_status_ne _ _, ?_⟩
  exact ⟨finishDecode_lk _ _, finishDecode_cmd _ _, finishDecode_cfg _ _, finishDecode_host _ _⟩

end Sys2Proof.Machine

/-! SUPPORT. The statements of spec/60_exceptions.md: the six failures of DECODE, each told on its cause, and the reserved
command byte. -/

namespace Sys2Proof.Machine

open Sys2Proof.Safety

/-! ## The end of a failing DECODE -/

/-- A failure that the stages end with is the outcome of the DECODE, and nothing but the working registers, STATUS and
the frames is written (R200). -/
theorem decodeFails_of_decodeStages {inp : List Byte} {s : State} {c : FailCode}
    (h : (decodeStages s.cfg inp (Working.drawn s.draws)).2 = some c) : DecodeFails inp s (statusOf c) := by
  obtain ⟨w, hw⟩ : ∃ w, decodeStages s.cfg inp (Working.drawn s.draws) = (w, some c) := ⟨_, Prod.ext rfl h⟩
  refine ⟨w, s.draws + 1, ?_⟩
  rw [exec_decode, execDecode_eq, hw, finishDecode_some]
  rfl

/-- A length that the gate turns away (R121). -/
theorem decodeFails_of_lengthGate {inp : List Byte} (s : State) {c : FailCode} (h : lengthGate inp.length = some c) :
    DecodeFails inp s (statusOf c) :=
  decodeFails_of_decodeStages (by rw [decodeStages_gate _ _ h])

/-- A string with a pair that is no byte (R123). -/
theorem decodeFails_of_not_spelled {inp : List Byte} (s : State) (hl : LengthOk inp) (hs : spelledBytes inp = none) :
    DecodeFails inp s (statusOf .invalidHex) := by
  obtain ⟨w, hw⟩ := decodeStages_invalidHex s.cfg (Working.drawn s.draws) hl hs
  exact decodeFails_of_decodeStages (by rw [hw])

/-- A failure that the checks report of the spelled bytes (R130, R131, R155). -/
theorem decodeFails_of_frameFailure {inp bs : List Byte} {s : State} {c : FailCode} (hl : LengthOk inp)
    (hs : spelledBytes inp = some bs) (h : frameFailure s.cfg bs (drawnBytes s) = some c) :
    DecodeFails inp s (statusOf c) :=
  decodeFails_of_decodeStages ((decodeStages_snd_of_spelled s.cfg _ hl hs).trans h)

/-! ## A pair that is no byte -/

/-- Characters with a pair that is no byte spell nothing, wherever the pair stands (R103). -/
theorem pairBytes_eq_none_of_pair {ch cl : Byte} (hbad : hexpair ch cl = none) :
    ∀ {cs : List Byte} {i : Nat}, cs[2 * i]? = some ch → cs[2 * i + 1]? = some cl → pairBytes cs = none
  | [], _, hch, _ => by simp at hch
  | [_], _, _, hcl => by simp at hcl
  | a :: b :: rest, 0, hch, hcl => by
    obtain rfl : a = ch := Option.some.inj hch
    obtain rfl : b = cl := Option.some.inj hcl
    simp [pairBytes, hbad]
  | a :: b :: rest, i + 1, hch, hcl => by
    have hrest : pairBytes rest = none := pairBytes_eq_none_of_pair hbad (i := i) hch hcl
    simp [pairBytes, hrest]

/-- A pair below the pair count lies before the last character, so the string spells no bytes where it is none
(R122). -/
theorem spelledBytes_eq_none_of_pair {inp : List Byte} {i : Nat} {ch cl : Byte} (hi : i < (inp.length - 1) / 2)
    (hch : inp[2 * i]? = some ch) (hcl : inp[2 * i + 1]? = some cl) (hbad : hexpair ch cl = none) :
    spelledBytes inp = none := by
  refine pairBytes_eq_none_of_pair hbad (i := i) ?_ ?_
  · rw [List.getElem?_dropLast, if_pos (by omega), hch]
  · rw [List.getElem?_dropLast, if_pos (by omega), hcl]

/-! ## The statements -/

/-- Settles O14: the pair function answers no byte for the pair. -/
theorem invalidHexFails : Obligations.InvalidHexFails := by
  unfold Obligations.InvalidHexFails
  intro inp s i ch cl hl hi hch hcl herr
  have hbad : hexpair ch cl = none := (hexpair_eq_none_iff ch cl).mpr herr
  exact decodeFails_of_not_spelled s hl (spelledBytes_eq_none_of_pair hi hch hcl hbad)

/-- Settles O15: the identifier check is the first of the three. -/
theorem illegalCanIdFails : Obligations.IllegalCanIdFails := by
  unfold Obligations.IllegalCanIdFails
  intro inp bs s hl hs hide hmask
  have hid : ¬ IdLegal s.cfg (frameRawId bs (drawnBytes s)) := by
    rw [not_or, Bool.not_eq_true]
    exact ⟨hide, hmask⟩
  exact decodeFails_of_frameFailure hl hs (if_pos hid)

/-- Settles O16. -/
theorem illegalDlcFails : Obligations.IllegalDlcFails := by
  unfold Obligations.IllegalDlcFails
  intro inp bs s hl hs hid hdlc
  apply decodeFails_of_frameFailure (c := .illegalDlc) hl hs
  rw [frameFailure, if_neg (not_not.mpr hid), if_pos hdlc]

/-- Settles O17. -/
theorem checksumErrorFails : Obligations.ChecksumErrorFails := by
  unfold Obligations.ChecksumErrorFails
  intro inp bs s hl hs hid hdlc hck
  apply decodeFails_of_frameFailure (c := .checksumError) hl hs
  rw [frameFailure, if_neg (not_not.mpr hid), if_neg (not_lt.mpr hdlc), if_pos hck]

/-- Settles O5: the reserved byte is the first of the bytes that the decoder is given. -/
theorem reservedCommandStopsTheRun : Obligations.ReservedCommandStopsTheRun := by
  unfold Obligations.ReservedCommandStopsTheRun
  intro s c rest hhost hdec hlook
  have hreject : decode (leadingBytes s.host) = .error (.reservedCommand c) := by
    rw [hhost, leadingBytes, decode_of_reserved hdec hlook]
  rw [step]
  simp only [hreject]
  rw [hhost]
  rfl

/-- Settles O12. -/
theorem tooLongFails : Obligations.TooLongFails := by
  unfold Obligations.TooLongFails
  intro inp s hlong
  exact decodeFails_of_lengthGate s (c := .tooLong) (if_pos hlong)

/-- Settles O13: a string that is too short is not too long. -/
theorem tooShortFails : Obligations.TooShortFails := by
  unfold Obligations.TooShortFails
  intro inp s hshort
  have hgate : lengthGate inp.length = some .tooShort := by
    rw [lengthGate, if_neg (by rw [Config.maxLen]; omega), if_pos hshort]
  exact decodeFails_of_lengthGate s hgate

end Sys2Proof.Machine

/-! SUPPORT. The statements of spec/70_reset_and_hazards.md: the reset signal, that every request completes, and what
two equal requests share: everything where their draws are equal, else all that the spelled bytes decide. -/

namespace Sys2Proof.Machine

open Sys2Proof.Safety

/-! ## The reset signal -/

/-- A reset signal at the front of the host's actions is what the step serves. -/
theorem step_of_host_reset {s : State} {rest : List HostAction} (h : s.host = .reset :: rest) :
    step s = .next (resetEvent rest s) := by
  rw [step]
  simp only [h]

theorem readReg_resetEvent (rest : List HostAction) (s : State) (r : HostReg) :
    readReg r (resetEvent rest s) = none := by
  cases r <;> rfl

/-! ## Requests one after another -/

theorem requests_cons (i : Instr) (is : List Instr) : requests (i :: is) = sendBytes (encode i) ++ requests is := by
  rw [requests, List.flatMap_cons, sendBytes, List.map_append, sendBytes, requests, sendBytes]

/-- A request always completes, and leaves the host's actions alone (R102, R120). -/
theorem exec_completes (i : Instr) (s : State) : ∃ t, exec i s = .next t ∧ t.host = s.host := by
  cases i with
  | decode inp => exact ⟨_, execDecode_eq inp s, finishDecode_host _ _⟩
  | lookup b => exact ⟨_, exec_lookup b s, rfl⟩

/-- A well-formed request at the front of the host's actions is served in one step, and what stands behind it is left
(R62, R211). -/
theorem step_completes_request {s : State} {i : Instr} {rest : List HostAction} (hwf : i.Wf)
    (hhost : s.host = sendBytes (encode i) ++ rest) : ∃ t, step s = .next t ∧ t.host = rest := by
  rw [stepServesASentRequest s i rest hwf hhost]
  exact exec_completes i _

theorem steps_succ_of_next {s t : State} (k : Nat) (h : step s = .next t) : steps (k + 1) s = steps k t := by
  rw [steps, h]

/-! ## The frames that the end of a DECODE leaves -/

section
variable (r : StageResult) (s : State)

theorem finishDecode_df : (finishDecode r s).df = if r.2 = none then some (decodedFrameOf r.1) else none := by
  obtain ⟨w, _ | c⟩ := r <;> rfl

theorem finishDecode_sf : (finishDecode r s).sf = if r.2 = none then some (socketFrameOf s.cfg r.1) else none := by
  obtain ⟨w, _ | c⟩ := r <;> rfl

theorem finishDecode_df_isSome : (finishDecode r s).df.isSome = r.2.isNone := by
  obtain ⟨w, _ | c⟩ := r <;> rfl

theorem finishDecode_sf_isSome : (finishDecode r s).sf.isSome = r.2.isNone := by
  obtain ⟨w, _ | c⟩ := r <;> rfl

end

/-- A DECODE is OK only of a string of legal length that spells bytes (R121, R123). -/
theorem exists_spelled_of_decodeStages_ok {cfg : Params} {inp : List Byte} {w : Working}
    (h : (decodeStages cfg inp w).2 = none) : LengthOk inp ∧ ∃ bs, spelledBytes inp = some bs := by
  cases hgate : lengthGate inp.length with
  | some c => rw [decodeStages_gate cfg w hgate] at h; cases h
  | none =>
    have hl : LengthOk inp := lengthGate_eq_none.mp hgate
    cases hs : spelledBytes inp with
    | none =>
      obtain ⟨_, hw⟩ := decodeStages_invalidHex cfg w hl hs
      rw [hw] at h; cases h
    | some bs => exact ⟨hl, bs, rfl⟩

section
variable {cfg : Params} {inp : List Byte} {w : Working} {s : State}

/-- A DecodedFrame that a DECODE leaves is that of the bytes its string spells (R174). -/
theorem spelled_of_finishDecode_df {d : DecodedFrame} (h : (finishDecode (decodeStages cfg inp w) s).df = some d) :
    ∃ bs, LengthOk inp ∧ spelledBytes inp = some bs ∧ d = spelledDecodedFrame bs w.staged := by
  rw [finishDecode_df, Option.ite_none_right_eq_some] at h
  obtain ⟨hok, hd⟩ := h
  obtain ⟨hl, bs, hs⟩ := exists_spelled_of_decodeStages_ok hok
  exact ⟨bs, hl, hs, (Option.some.inj hd).symm.trans (decodeStages_extracted cfg w hl hs).decodedFrameOf_eq⟩

/-- So is a SocketFrame, under the configuration of the state it is committed to (R170 to R173). -/
theorem spelled_of_finishDecode_sf {f : SocketFrame} (h : (finishDecode (decodeStages cfg inp w) s).sf = some f) :
    ∃ bs, LengthOk inp ∧ spelledBytes inp = some bs ∧ f = spelledSocketFrame s.cfg bs w.staged := by
  rw [finishDecode_sf, Option.ite_none_right_eq_some] at h
  obtain ⟨hok, hf⟩ := h
  obtain ⟨hl, bs, hs⟩ := exists_spelled_of_decodeStages_ok hok
  exact ⟨bs, hl, hs, (Option.some.inj hf).symm.trans ((decodeStages_extracted cfg w hl hs).socketFrameOf_eq s.cfg)⟩

end

/-! ## What two draws leave alike -/

section
variable {bs : List Byte} (hlen : 7 ≤ bs.length) (d d' : Staged)
include hlen

/-- The header is spelled and never drawn (R124). -/
theorem stagedByte_header_eq : ∀ k, k < 7 → stagedByte bs d k = stagedByte bs d' k :=
  fun _ hk => stagedByte_eq_of_lt (by omega) d d'

theorem frameRawId_eq_of_header_spelled : frameRawId bs d = frameRawId bs d' :=
  frameRawId_congr (stagedByte_header_eq hlen d d') (by omega)

theorem frameDlc_eq_of_header_spelled : frameDlc bs d = frameDlc bs d' :=
  frameDlc_congr (stagedByte_header_eq hlen d d') (by omega)

/-- Only the checksum byte can be drawn among the bytes that the checks read, and only of a frame that passes the checks
before it (R134). -/
theorem frameFailure_eq_of_checksum_spelled {cfg : Params}
    (h : IdLegal cfg (frameRawId bs d) → frameDlc bs d ≤ 8 → 7 + frameDlc bs d ≤ bs.length) :
    frameFailure cfg bs d = frameFailure cfg bs d' := by
  have hrawid := frameRawId_eq_of_header_spelled hlen d d'
  have hdlc := frameDlc_eq_of_header_spelled hlen d d'
  by_cases hid : IdLegal cfg (frameRawId bs d)
  · by_cases hle : frameDlc bs d ≤ 8
    · have hspelled := h hid hle
      exact frameFailure_congr (fun k hk => stagedByte_eq_of_lt (by omega) d d') cfg
    · simp only [frameFailure, ← hrawid, ← hdlc, if_pos (not_le.mp hle)]
  · simp only [frameFailure, ← hrawid, if_pos hid]

end

/-- The payload bytes that are spelled are never drawn (R173). -/
theorem framePayload_get_eq_of_lt {bs : List Byte} {i : Fin 8} (hi : 6 + i.val < bs.length) (d d' : Staged) :
    (framePayload bs d).get i = (framePayload bs d').get i := by
  simp only [Vector.get_eq_getElem, framePayload, Vector.getElem_ofFn]
  exact stagedByte_eq_of_lt hi d d'

/-- But for a short frame's, an outcome does not depend on the draws (R134, R237). -/
theorem decodeStages_snd_eq_of_not_shortFrame {cfg : Params} {inp : List Byte} {w : Working}
    (h : ¬ ShortFrame cfg inp w.staged) (w' : Working) : (decodeStages cfg inp w).2 = (decodeStages cfg inp w').2 := by
  cases hgate : lengthGate inp.length with
  | some c => rw [decodeStages_gate cfg w hgate, decodeStages_gate cfg w' hgate]
  | none =>
    have hl : LengthOk inp := lengthGate_eq_none.mp hgate
    cases hs : spelledBytes inp with
    | none =>
      obtain ⟨_, hw⟩ := decodeStages_invalidHex cfg w hl hs
      obtain ⟨_, hw'⟩ := decodeStages_invalidHex cfg w' hl hs
      rw [hw, hw']
    | some bs =>
      rw [decodeStages_snd_of_spelled cfg w hl hs, decodeStages_snd_of_spelled cfg w' hl hs]
      apply frameFailure_eq_of_checksum_spelled (spelledBytes_length_bounds hl hs).1
      intro hid hdlc
      by_contra hshort
      exact h ⟨hl, bs, hs, hid, hdlc, not_le.mp hshort⟩

/-! ## The statements -/

/-- Settles O37: no draw decides the outcome of a frame that is not short, and the frames of two OK outcomes are made of
the same spelled bytes. -/
theorem decodeIsIdempotent : Obligations.DecodeIsIdempotent := by
  unfold Obligations.DecodeIsIdempotent
  intro inp s t hcfg
  refine ⟨_, _, execDecode_eq inp s, execDecode_eq inp t, fun hns => ?_, fun d d' hd hd' => ?_, fun f f' hf hf' => ?_⟩
  · have houtcome := decodeStages_snd_eq_of_not_shortFrame hns (Working.drawn t.draws)
    simp only [finishDecode_status, finishDecode_df_isSome, finishDecode_sf_isSome, ← hcfg, houtcome, and_self]
  · obtain ⟨bs, hl, hs, rfl⟩ := spelled_of_finishDecode_df hd
    obtain ⟨bs', -, hs', rfl⟩ := spelled_of_finishDecode_df hd'
    obtain rfl := Option.some.inj (hs.symm.trans hs')
    have hmin := (spelledBytes_length_bounds hl hs).1
    rw [← spelledBytes_length hs]
    exact ⟨stagedByte_header_eq hmin _ _ 0 (by omega), frameRawId_eq_of_header_spelled hmin _ _,
      congrArg (BitVec.ofNat 8) (frameDlc_eq_of_header_spelled hmin _ _),
      fun i hi => framePayload_get_eq_of_lt hi _ _⟩
  · obtain ⟨bs, hl, hs, rfl⟩ := spelled_of_finishDecode_sf hf
    obtain ⟨bs', -, hs', rfl⟩ := spelled_of_finishDecode_sf hf'
    obtain rfl := Option.some.inj (hs.symm.trans hs')
    have hmin := (spelledBytes_length_bounds hl hs).1
    rw [← spelledBytes_length hs, startDecode_cfg, startDecode_cfg, hcfg]
    exact ⟨congrArg (arbitrationId t.cfg) (frameRawId_eq_of_header_spelled hmin _ _),
      congrArg (BitVec.ofNat 8) (frameDlc_eq_of_header_spelled hmin _ _),
      fun i hi => framePayload_get_eq_of_lt hi _ _⟩

/-- Settles O53, by induction on the requests that are left. -/
theorem everyRequestCompletes : Obligations.EveryRequestCompletes := by
  unfold Obligations.EveryRequestCompletes
  intro is
  induction is with
  | nil => exact fun s _ hhost => ⟨s, rfl, hhost⟩
  | cons i is ih =>
    intro s hwf hhost
    obtain ⟨hi, his⟩ := List.forall_mem_cons.mp hwf
    rw [requests_cons] at hhost
    obtain ⟨t, hstep, ht⟩ := step_completes_request hi hhost
    rw [List.length_cons, steps_succ_of_next _ hstep]
    exact ih t his ht

/-- Settles O38: a DECODE's end is made of the stages' result, and they start from the draws; LK is the table's word. -/
theorem earlierRequestsDoNotMatter : Obligations.EarlierRequestsDoNotMatter := by
  unfold Obligations.EarlierRequestsDoNotMatter
  intro i s t hcfg hdraws
  cases i with
  | decode inp =>
    refine ⟨_, _, execDecode_eq inp s, execDecode_eq inp t, fun _ _ => ?_, nofun⟩
    simp only [finishDecode_status, finishDecode_df, finishDecode_sf, startDecode_cfg, hcfg, hdraws, and_self]
  | lookup b => exact ⟨_, _, exec_lookup b s, exec_lookup b t, nofun, fun _ _ => rfl⟩

/-- Settles O40: the step is the reset event, whose state holds no value. -/
theorem resetSignalEmptiesRegisters : Obligations.ResetSignalEmptiesRegisters := by
  unfold Obligations.ResetSignalEmptiesRegisters
  intro s rest hhost
  exact ⟨_, step_of_host_reset hhost, resetEvent_cfg _ _, resetEvent_host _ _, resetEvent_cmd _ _,
    readReg_resetEvent rest s⟩

end Sys2Proof.Machine

/-! SUPPORT. What a step does where the host's bytes are no complete request: none at all, or a request that is begun
(the model's choices, log 2 and log 3). -/

namespace Sys2Proof.Machine

/-! ## The idle block -/

/-- With no action left, there is nothing to serve. -/
theorem step_of_host_nil {s : State} (h : s.host = []) : step s = .next s := by
  rw [step]
  simp only [h]

/-! ## The incomplete request -/

/-- Where the host sends a byte, its next action is a byte. -/
theorem host_eq_byte_of_leadingBytes_ne_nil {s : State} (h : leadingBytes s.host ≠ []) :
    ∃ b t, s.host = .byte b :: t := by
  rcases hh : s.host with _ | ⟨b | r | _, t⟩
  · rw [hh] at h; exact absurd rfl h
  · exact ⟨b, t, rfl⟩
  · rw [hh] at h; exact absurd rfl h
  · rw [hh] at h; exact absurd rfl h

/-- A step on bytes that are no request rejects them. -/
theorem step_of_decode_error {s : State} {e : DecodeError} (hbytes : leadingBytes s.host ≠ [])
    (h : decode (leadingBytes s.host) = .error e) : step s = rejectRequest e s := by
  obtain ⟨b, t, hh⟩ := host_eq_byte_of_leadingBytes_ne_nil hbytes
  rw [step]
  simp only [h]
  rw [hh]

/-- Every error but a reserved command says that the request is not complete yet. -/
theorem rejectRequest_of_not_reserved {e : DecodeError} (s : State) (h : ∀ c, e ≠ .reservedCommand c) :
    rejectRequest e s = incompleteRequest s := by
  cases e with
  | reservedCommand c => exact absurd rfl (h c)
  | noBytes | unterminatedString | missingOperand => rfl

section
variable {s : State}

theorem incompleteRequest_of_nothing_after (h : afterBytes s.host = []) : incompleteRequest s = .next s := by
  rw [incompleteRequest, h]

theorem incompleteRequest_of_reset_after {rest : List HostAction} (h : afterBytes s.host = .reset :: rest) :
    incompleteRequest s = .next (resetEvent rest s) := by
  rw [incompleteRequest, h]

theorem incompleteRequest_of_read_after {r : HostReg} {rest : List HostAction}
    (h : afterBytes s.host = .read r :: rest) : incompleteRequest s = .fault .readDuringRequest := by
  rw [incompleteRequest, h]

end

/-! ## The statements -/

/-- Settles O47. -/
theorem idleBlockStays : Obligations.IdleBlockStays := by
  unfold Obligations.IdleBlockStays
  exact fun _ => step_of_host_nil

/-- Settles O48: the step is what the block does with an incomplete request, which turns on what follows its bytes. -/
theorem incompleteRequestWaits : Obligations.IncompleteRequestWaits := by
  unfold Obligations.IncompleteRequestWaits
  intro s e hbytes hdecode hreserved
  rw [step_of_decode_error hbytes hdecode, rejectRequest_of_not_reserved s hreserved]
  exact ⟨incompleteRequest_of_nothing_after, fun _ => incompleteRequest_of_reset_after,
    fun _ _ => incompleteRequest_of_read_after⟩

end Sys2Proof.Machine
